-- ==== Sys2Proof/Word.lean ====
section
/-! DEFINITION. The widths of the machine's values (spec/00_scope.md R8, R10). -/

namespace Sys2Proof

/-- `u8`: a byte of memory or of an instruction (R10). -/
abbrev Byte := BitVec 8

/-- `u24`: a word, and every register but F (R8, R20). -/
abbrev Word := BitVec 24

/-- `u48`: the value of register F (R8, R32). -/
abbrev FWord := BitVec 48

end Sys2Proof
end

