-- ==== Sys2Proof/Syntax.lean ====
section
/-! DEFINITION. The instructions as the decoder returns them: one constructor per row of
spec/opcode_table.json, with the raw operand fields of R104. -/

namespace Sys2Proof

/-- The instruction formats 1 to 4 (R80 to R84). -/
inductive Format
  | f1 | f2 | f3 | f4
  deriving DecidableEq, Repr

/-- The raw operand fields of a format-3/4 instruction (R91, R104).  `field` is the value field:
all 20 bits are `addr` when `e` is set (format 4, R84), the low 12 are `disp` when it is not (format 3, R83). -/
structure Operand where
  n : Bool
  i : Bool
  x : Bool
  b : Bool
  p : Bool
  e : Bool
  field : BitVec 20
  deriving DecidableEq, Repr

/-- A decoded instruction.  Format-2 fields are the raw 4-bit numbers `r1`, `r2` (R90). -/
inductive Instr
  /-- LDA, opcode 0x00, format 3/4 (R210). -/
  | lda (o : Operand)
  /-- LDX, opcode 0x04, format 3/4 (R216). -/
  | ldx (o : Operand)
  /-- LDL, opcode 0x08, format 3/4 (R213). -/
  | ldl (o : Operand)
  /-- STA, opcode 0x0C, format 3/4 (R230). -/
  | sta (o : Operand)
  /-- STX, opcode 0x10, format 3/4 (R236). -/
  | stx (o : Operand)
  /-- STL, opcode 0x14, format 3/4 (R233). -/
  | stl (o : Operand)
  /-- ADD, opcode 0x18, format 3/4 (R150). -/
  | add (o : Operand)
  /-- SUB, opcode 0x1C, format 3/4 (R151). -/
  | sub (o : Operand)
  /-- MUL, opcode 0x20, format 3/4 (R152). -/
  | mul (o : Operand)
  /-- DIV, opcode 0x24, format 3/4 (R153). -/
  | div (o : Operand)
  /-- COMP, opcode 0x28, format 3/4 (R183). -/
  | comp (o : Operand)
  /-- TIX, opcode 0x2C, format 3/4 (R129). -/
  | tix (o : Operand)
  /-- JEQ, opcode 0x30, format 3/4 (R251). -/
  | jeq (o : Operand)
  /-- JGT, opcode 0x34, format 3/4 (R253). -/
  | jgt (o : Operand)
  /-- JLT, opcode 0x38, format 3/4 (R252). -/
  | jlt (o : Operand)
  /-- J, opcode 0x3C, format 3/4 (R250). -/
  | j (o : Operand)
  /-- AND, opcode 0x40, format 3/4 (R181). -/
  | and (o : Operand)
  /-- OR, opcode 0x44, format 3/4 (R182). -/
  | or (o : Operand)
  /-- JSUB, opcode 0x48, format 3/4 (R254). -/
  | jsub (o : Operand)
  /-- RSUB, opcode 0x4C, format 3/4 (R255). -/
  | rsub (o : Operand)
  /-- LDCH, opcode 0x50, format 3/4 (R212). -/
  | ldch (o : Operand)
  /-- STCH, opcode 0x54, format 3/4 (R232). -/
  | stch (o : Operand)
  /-- ADDF, opcode 0x58, format 3/4 (R160). -/
  | addf (o : Operand)
  /-- SUBF, opcode 0x5C, format 3/4 (R161). -/
  | subf (o : Operand)
  /-- MULF, opcode 0x60, format 3/4 (R129). -/
  | mulf (o : Operand)
  /-- DIVF, opcode 0x64, format 3/4 (R129). -/
  | divf (o : Operand)
  /-- LDB, opcode 0x68, format 3/4 (R211). -/
  | ldb (o : Operand)
  /-- LDS, opcode 0x6C, format 3/4 (R214). -/
  | lds (o : Operand)
  /-- LDF, opcode 0x70, format 3/4 (R129). -/
  | ldf (o : Operand)
  /-- LDT, opcode 0x74, format 3/4 (R215). -/
  | ldt (o : Operand)
  /-- STB, opcode 0x78, format 3/4 (R231). -/
  | stb (o : Operand)
  /-- STS, opcode 0x7C, format 3/4 (R234). -/
  | sts (o : Operand)
  /-- STF, opcode 0x80, format 3/4 (R129). -/
  | stf (o : Operand)
  /-- STT, opcode 0x84, format 3/4 (R235). -/
  | stt (o : Operand)
  /-- COMPF, opcode 0x88, format 3/4 (R129). -/
  | compf (o : Operand)
  /-- ADDR, opcode 0x90, format 2 (R154). -/
  | addr (r1 r2 : BitVec 4)
  /-- SUBR, opcode 0x94, format 2 (R155). -/
  | subr (r1 r2 : BitVec 4)
  /-- MULR, opcode 0x98, format 2 (R156). -/
  | mulr (r1 r2 : BitVec 4)
  /-- DIVR, opcode 0x9C, format 2 (R157). -/
  | divr (r1 r2 : BitVec 4)
  /-- COMPR, opcode 0xA0, format 2 (R184). -/
  | compr (r1 r2 : BitVec 4)
  /-- SHIFTL, opcode 0xA4, format 2 (R187). -/
  | shiftl (r1 r2 : BitVec 4)
  /-- SHIFTR, opcode 0xA8, format 2 (R188). -/
  | shiftr (r1 r2 : BitVec 4)
  /-- RMO, opcode 0xAC, format 2 (R129). -/
  | rmo (r1 r2 : BitVec 4)
  /-- SVC, opcode 0xB0, format 2 (R280). -/
  | svc (r1 r2 : BitVec 4)
  /-- CLEAR, opcode 0xB4, format 2 (R186). -/
  | clear (r1 r2 : BitVec 4)
  /-- TIXR, opcode 0xB8, format 2 (R185). -/
  | tixr (r1 r2 : BitVec 4)
  /-- FLOAT, opcode 0xC0, format 1 (R129). -/
  | float
  /-- FIX, opcode 0xC4, format 1 (R129). -/
  | fix
  /-- NORM, opcode 0xC8, format 1 (R129). -/
  | norm
  /-- LPS, opcode 0xD0, format 3/4 (R270). -/
  | lps (o : Operand)
  /-- STI, opcode 0xD4, format 3/4 (R129). -/
  | sti (o : Operand)
  /-- RD, opcode 0xD8, format 3/4 (R276). -/
  | rd (o : Operand)
  /-- WD, opcode 0xDC, format 3/4 (R275). -/
  | wd (o : Operand)
  /-- TD, opcode 0xE0, format 3/4 (R277). -/
  | td (o : Operand)
  /-- STSW, opcode 0xE8, format 3/4 (R129). -/
  | stsw (o : Operand)
  /-- SSK, opcode 0xEC, format 3/4 (R271). -/
  | ssk (o : Operand)
  /-- SIO, opcode 0xF0, format 1 (R272). -/
  | sio
  /-- HIO, opcode 0xF4, format 1 (R129). -/
  | hio
  /-- TIO, opcode 0xF8, format 1 (R273). -/
  | tio
  deriving DecidableEq, Repr

/-- The operand fields an instruction carries, by format class (R81 to R84). -/
inductive Fields
  | none
  | regs (r1 r2 : BitVec 4)
  | operand (o : Operand)
  deriving DecidableEq, Repr

/-- The operand fields of an instruction: its constructor's arguments. -/
def Instr.fields : Instr → Fields
  | .lda o => .operand o
  | .ldx o => .operand o
  | .ldl o => .operand o
  | .sta o => .operand o
  | .stx o => .operand o
  | .stl o => .operand o
  | .add o => .operand o
  | .sub o => .operand o
  | .mul o => .operand o
  | .div o => .operand o
  | .comp o => .operand o
  | .tix o => .operand o
  | .jeq o => .operand o
  | .jgt o => .operand o
  | .jlt o => .operand o
  | .j o => .operand o
  | .and o => .operand o
  | .or o => .operand o
  | .jsub o => .operand o
  | .rsub o => .operand o
  | .ldch o => .operand o
  | .stch o => .operand o
  | .addf o => .operand o
  | .subf o => .operand o
  | .mulf o => .operand o
  | .divf o => .operand o
  | .ldb o => .operand o
  | .lds o => .operand o
  | .ldf o => .operand o
  | .ldt o => .operand o
  | .stb o => .operand o
  | .sts o => .operand o
  | .stf o => .operand o
  | .stt o => .operand o
  | .compf o => .operand o
  | .addr r1 r2 => .regs r1 r2
  | .subr r1 r2 => .regs r1 r2
  | .mulr r1 r2 => .regs r1 r2
  | .divr r1 r2 => .regs r1 r2
  | .compr r1 r2 => .regs r1 r2
  | .shiftl r1 r2 => .regs r1 r2
  | .shiftr r1 r2 => .regs r1 r2
  | .rmo r1 r2 => .regs r1 r2
  | .svc r1 r2 => .regs r1 r2
  | .clear r1 r2 => .regs r1 r2
  | .tixr r1 r2 => .regs r1 r2
  | .float => .none
  | .fix => .none
  | .norm => .none
  | .lps o => .operand o
  | .sti o => .operand o
  | .rd o => .operand o
  | .wd o => .operand o
  | .td o => .operand o
  | .stsw o => .operand o
  | .ssk o => .operand o
  | .sio => .none
  | .hio => .none
  | .tio => .none

end Sys2Proof
end

