-- ==== Sys2Proof/WellFormed.lean ====
section
/-! DEFINITION. Which terms of `Instr` are encodings. -/

namespace Sys2Proof

/-- A format-3 value field has 12 bits (R8, R83): with `e` clear the upper 8 bits of `field` are 0. -/
def Operand.wellFormed (o : Operand) : Bool := o.e || decide (o.field.toNat < 4096)

/-- An instruction is well formed when its operand fields fit their places.  Formats 1 and 2 have no
check: r1 and r2 are raw 4-bit numbers (R90). -/
def Instr.wellFormed (i : Instr) : Bool :=
  match i.fields with
  | .none => true
  | .regs _ _ => true
  | .operand o => o.wellFormed

end Sys2Proof
end

