-- ==== Sys2Proof/Decode.lean ====
section
/-! DEFINITION. The decoder (spec/30_encoding.md), total on any list of bytes, then the encoder written
from the same field tables, then the host's view of one opcode-table word. -/

namespace Sys2Proof

/-! ### Formats and sizes -/

/-- The size in bytes of an instruction of a format (R80). -/
def Format.size : Format → Nat
  | .f1 => 1
  | .f2 => 2
  | .f3 => 3
  | .f4 => 4

/-- `e = 1` makes a format-3/4 instruction format 4 (R87). -/
def Operand.format (o : Operand) : Format := if o.e then .f4 else .f3

/-- The format of an instruction (R104). -/
def formatOf (i : Instr) : Format :=
  match i.fields with
  | .none => .f1
  | .regs _ _ => .f2
  | .operand o => o.format

/-- The size of an instruction in bytes, `size = format` (R80, R104). -/
def sizeOfInstr (i : Instr) : Nat := (formatOf i).size

/-! ### The opcode map (R108) -/

/-- The format-1 opcodes (R85) with their instructions. -/
def format1Rows : List (Byte × Instr) :=
  [(0xC0#8, .float),
   (0xC4#8, .fix),
   (0xC8#8, .norm),
   (0xF0#8, .sio),
   (0xF4#8, .hio),
   (0xF8#8, .tio)]

/-- The format-2 opcodes (R85) with their instructions. -/
def format2Rows : List (Byte × (BitVec 4 → BitVec 4 → Instr)) :=
  [(0x90#8, .addr),
   (0x94#8, .subr),
   (0x98#8, .mulr),
   (0x9C#8, .divr),
   (0xA0#8, .compr),
   (0xA4#8, .shiftl),
   (0xA8#8, .shiftr),
   (0xAC#8, .rmo),
   (0xB0#8, .svc),
   (0xB4#8, .clear),
   (0xB8#8, .tixr)]

/-- The format-3/4 opcodes (R108) with their instructions. -/
def format34Rows : List (Byte × (Operand → Instr)) :=
  [(0x00#8, .lda),
   (0x04#8, .ldx),
   (0x08#8, .ldl),
   (0x0C#8, .sta),
   (0x10#8, .stx),
   (0x14#8, .stl),
   (0x18#8, .add),
   (0x1C#8, .sub),
   (0x20#8, .mul),
   (0x24#8, .div),
   (0x28#8, .comp),
   (0x2C#8, .tix),
   (0x30#8, .jeq),
   (0x34#8, .jgt),
   (0x38#8, .jlt),
   (0x3C#8, .j),
   (0x40#8, .and),
   (0x44#8, .or),
   (0x48#8, .jsub),
   (0x4C#8, .rsub)] ++
  [(0x50#8, .ldch),
   (0x54#8, .stch),
   (0x58#8, .addf),
   (0x5C#8, .subf),
   (0x60#8, .mulf),
   (0x64#8, .divf),
   (0x68#8, .ldb),
   (0x6C#8, .lds),
   (0x70#8, .ldf),
   (0x74#8, .ldt),
   (0x78#8, .stb),
   (0x7C#8, .sts),
   (0x80#8, .stf),
   (0x84#8, .stt),
   (0x88#8, .compf),
   (0xD0#8, .lps),
   (0xD4#8, .sti),
   (0xD8#8, .rd),
   (0xDC#8, .wd),
   (0xE0#8, .td)] ++
  [(0xE8#8, .stsw),
   (0xEC#8, .ssk)]

/-- The entry of an opcode in a table of rows. -/
def lookupRow {α : Type} : List (Byte × α) → Byte → Option α
  | [], _ => none
  | (k, v) :: rest, op => if k = op then some v else lookupRow rest op

/-! ### Field extraction -/

/-- The format-3/4 operand fields read from `b0` and `b1` with a value field (R83, R84, R91). -/
def operandOf (b0 b1 : Byte) (field : BitVec 20) : Operand :=
  { n := b0.getLsbD 1, i := b0.getLsbD 0,
    x := b1.getLsbD 7, b := b1.getLsbD 6, p := b1.getLsbD 5, e := b1.getLsbD 4,
    field := field }

/-- `disp = b1[3:0] : b2`, held in the low 12 bits of the value field (R91). -/
def dispField (b1 b2 : Byte) : BitVec 20 := (b1.setWidth 4 ++ b2 : BitVec 12).setWidth 20

/-- `addr = b1[3:0] : b2 : b3` (R91). -/
def addrField (b1 b2 b3 : Byte) : BitVec 20 := (b1.setWidth 4 ++ b2 : BitVec 12) ++ b3

/-- What the decoder makes of a list of bytes. -/
inductive Decoded
  /-- An instruction of the opcode table. -/
  | instr (i : Instr)
  /-- Rejected by name: a format-3/4 encoding whose decoded opcode has no row for that format class
  (R109 b and c).  It fails at dispatch with UnsupportedOpcode.  DEDUCED (log 5, safe). -/
  | unregistered (opcode : Byte) (o : Operand)
  /-- Rejected by name: the list ends before the instruction does.  In a fetch: the next byte is out of
  bounds (R88). -/
  | truncated
  deriving DecidableEq, Repr

/-- The decoded opcode of a format-3/4 instruction is `b0 & 0xFC` (R89). -/
def decode34 (b0 : Byte) (o : Operand) : Decoded :=
  match lookupRow format34Rows (b0 &&& 0xFC#8) with
  | some mk => .instr (mk o)
  | none => .unregistered (b0 &&& 0xFC#8) o

/-- The bytes of a format-3/4 instruction after `b0`: `b1[4]` is `e` (R87). -/
def decodeRest34 (b0 : Byte) : List Byte → Decoded
  | [] => .truncated
  | b1 :: rest =>
    if b1.getLsbD 4 then
      match rest with
      | b2 :: b3 :: _ => decode34 b0 (operandOf b0 b1 (addrField b1 b2 b3))
      | _ => .truncated
    else
      match rest with
      | b2 :: _ => decode34 b0 (operandOf b0 b1 (dispField b1 b2))
      | [] => .truncated

/-- The decoder of R87 to R91: the whole byte `b0` is looked up in the format-1 and then the format-2
set (R86); any other `b0` begins a format-3/4 instruction. -/
def decode : List Byte → Decoded
  | [] => .truncated
  | b0 :: rest =>
    match lookupRow format1Rows b0 with
    | some i => .instr i
    | none =>
      match lookupRow format2Rows b0 with
      | some mk =>
        match rest with
        | b1 :: _ => .instr (mk (b1.extractLsb' 4 4) (b1.extractLsb' 0 4))
        | [] => .truncated
      | none => decodeRest34 b0 rest

/-! ### The encoder -/

/-- The opcode of an instruction (R108): its row's value. -/
def opcodeOf : Instr → Byte
  | .lda _ => 0x00#8
  | .ldx _ => 0x04#8
  | .ldl _ => 0x08#8
  | .sta _ => 0x0C#8
  | .stx _ => 0x10#8
  | .stl _ => 0x14#8
  | .add _ => 0x18#8
  | .sub _ => 0x1C#8
  | .mul _ => 0x20#8
  | .div _ => 0x24#8
  | .comp _ => 0x28#8
  | .tix _ => 0x2C#8
  | .jeq _ => 0x30#8
  | .jgt _ => 0x34#8
  | .jlt _ => 0x38#8
  | .j _ => 0x3C#8
  | .and _ => 0x40#8
  | .or _ => 0x44#8
  | .jsub _ => 0x48#8
  | .rsub _ => 0x4C#8
  | .ldch _ => 0x50#8
  | .stch _ => 0x54#8
  | .addf _ => 0x58#8
  | .subf _ => 0x5C#8
  | .mulf _ => 0x60#8
  | .divf _ => 0x64#8
  | .ldb _ => 0x68#8
  | .lds _ => 0x6C#8
  | .ldf _ => 0x70#8
  | .ldt _ => 0x74#8
  | .stb _ => 0x78#8
  | .sts _ => 0x7C#8
  | .stf _ => 0x80#8
  | .stt _ => 0x84#8
  | .compf _ => 0x88#8
  | .addr _ _ => 0x90#8
  | .subr _ _ => 0x94#8
  | .mulr _ _ => 0x98#8
  | .divr _ _ => 0x9C#8
  | .compr _ _ => 0xA0#8
  | .shiftl _ _ => 0xA4#8
  | .shiftr _ _ => 0xA8#8
  | .rmo _ _ => 0xAC#8
  | .svc _ _ => 0xB0#8
  | .clear _ _ => 0xB4#8
  | .tixr _ _ => 0xB8#8
  | .float => 0xC0#8
  | .fix => 0xC4#8
  | .norm => 0xC8#8
  | .lps _ => 0xD0#8
  | .sti _ => 0xD4#8
  | .rd _ => 0xD8#8
  | .wd _ => 0xDC#8
  | .td _ => 0xE0#8
  | .stsw _ => 0xE8#8
  | .ssk _ => 0xEC#8
  | .sio => 0xF0#8
  | .hio => 0xF4#8
  | .tio => 0xF8#8

/-- The byte `b0` of a format-3/4 instruction: the opcode with `n` and `i` in bits 1 and 0 (R83). -/
def encodeB0 (op : Byte) (o : Operand) : Byte :=
  op.extractLsb' 2 6 ++ BitVec.ofBool o.n ++ BitVec.ofBool o.i

/-- The byte `b1` of a format-3/4 instruction: x, b, p, e and the top nibble of the value field (R83, R84). -/
def encodeB1 (o : Operand) (top : BitVec 4) : Byte :=
  BitVec.ofBool o.x ++ BitVec.ofBool o.b ++ BitVec.ofBool o.p ++ BitVec.ofBool o.e ++ top

/-- The bytes of a format-3 (R83) or format-4 (R84) instruction, lowest address first. -/
def encodeOperand (op : Byte) (o : Operand) : List Byte :=
  if o.e then
    [encodeB0 op o, encodeB1 o (o.field.extractLsb' 16 4), o.field.extractLsb' 8 8, o.field.extractLsb' 0 8]
  else
    [encodeB0 op o, encodeB1 o (o.field.extractLsb' 8 4), o.field.extractLsb' 0 8]

/-- The bytes of an instruction, lowest address first (R81 to R84). -/
def encode (i : Instr) : List Byte :=
  match i.fields with
  | .none => [opcodeOf i]
  | .regs r1 r2 => [opcodeOf i, r1 ++ r2]
  | .operand o => encodeOperand (opcodeOf i) o

/-! ### The host's opcode-table words -/

/-- The four bytes of an opcode-table word: byte `k` is bits `8k+7` to `8k` of `w`, and every bit from
`nbits` up is 0. -/
def tableBytes (nbits w : Nat) : List Byte :=
  let v := w % 2 ^ nbits
  [BitVec.ofNat 8 v, BitVec.ofNat 8 (v / 256), BitVec.ofNat 8 (v / 65536), BitVec.ofNat 8 (v / 16777216)]

/-- The instruction the decoder reads from an opcode-table word. -/
def decodeTableWord (nbits w : Nat) : Option Instr :=
  match decode (tableBytes nbits w) with
  | .instr i => some i
  | _ => none

end Sys2Proof
end

