-- ==== Sys2Proof/Config.lean ====
section
/-! DEFINITION. What an implementation fixes (`MEM_SIZE`) and the free values of the step (its draws). -/

namespace Sys2Proof

/-- The spec's default `MEM_SIZE` for an executable model (R7, D1).  DESIGN CHOICE (log 1): only the
machine that `State.reset` names has this size; every operation reads the size of the memory it is given. -/
def Config.memSize : Nat := 1048576

/-- The bounds R7 puts on `MEM_SIZE`. -/
abbrev Config.MemSizeAllowed (n : Nat) : Prop := 1024 ≤ n ∧ n ≤ 16777216

/-- FREE VALUE (log 2): the draw `io_rd_value` of RD (R9, R276), the `n`-th one taken. -/
opaque Config.ioRdValue : Nat → Word

/-- FREE VALUE (log 2): the draw `io_td_value` of TD (R9, R277), one of 0, 1, 2, the `n`-th one taken. -/
opaque Config.ioTdValue : Nat → Fin 3

end Sys2Proof
end

