-- ==== Sys2Proof/Machine/State.lean ====
section
/-! DEFINITION. The machine's state (spec/10_state.md), the failures it records, and the state after reset. -/

namespace Sys2Proof.Machine

/-- The nine registers of the file, by name (R20). -/
inductive RegName
  | a | x | l | b | s | t | f | pc | sw
  deriving DecidableEq, Repr

/-- The eight 24-bit registers: every register but F (R20). -/
inductive Reg24
  | a | x | l | b | s | t | pc | sw
  deriving DecidableEq, Repr

/-- The register file (R20). -/
structure Regs where
  a  : Word
  x  : Word
  l  : Word
  b  : Word
  s  : Word
  t  : Word
  f  : FWord
  pc : Word
  sw : Word
  deriving DecidableEq, Repr

/-- What an AddressError records: the address, or the register number (R300). -/
inductive AddressInfo
  | memory (addr : Nat)
  | register (number : BitVec 4)
  deriving DecidableEq, Repr

/-- The two instructions that divide: an ArithmeticError records which (R300). -/
inductive DivideOp
  | div | divr
  deriving DecidableEq, Repr

/-- The six failure kinds with the info each records (R300). -/
inductive Failure
  | addressError (info : AddressInfo)
  | alignmentError (addr : Nat)
  | unsupportedOpcode (opcode : Byte) (format : Format)
  | arithmeticError (op : DivideOp)
  | widthMismatch (reg : RegName)
  | illegalAddressingMode (opcode : Byte)
  deriving DecidableEq, Repr

/-- The `fault` record of a failed step: its kind, and the address of the failing instruction's first byte (R36). -/
structure FailureRecord where
  kind    : Failure
  pcFetch : Word
  deriving DecidableEq, Repr

/-- One entry of the history: `(pc_fetch, opcode, format, ea)`, `ea` none for formats 1 and 2 (R35). -/
structure TraceEntry where
  pcFetch : Word
  opcode  : Byte
  format  : Format
  ea      : Option Word
  deriving DecidableEq, Repr

/-- Memory: a buffer of `size` bytes at addresses 0 to `size - 1` (R50).  `cells` lists, by rising
address, the bytes that differ from what an unlisted address reads as. -/
structure Memory where
  size  : Nat
  cells : List Host.Cell
  deriving DecidableEq, Repr

/-- The whole state of the core (R39), and the model's own draw counter (log 2). -/
structure State where
  regs    : Regs
  mem     : Memory
  halted  : Bool
  fault   : Option FailureRecord
  history : List TraceEntry
  lastLog : Option TraceEntry
  draws   : Nat
  deriving DecidableEq, Repr

/-- The reasons a step can stop without a next state.  There is none: a failing step is a transition the
spec describes (R122, R125, R306), so the model answers it as a next state with `fault` set.  Raised by
nobody; safe.  DEDUCED (log 9). -/
inductive Fault
  deriving DecidableEq, Repr

/-- The reasons an instruction can be refused. -/
inductive Refusal
  /-- Raised by an arm of `exec` whose instruction has no meaning yet (safe); no arm raises it now. -/
  | notModelled (mnemonic : String)
  deriving DecidableEq, Repr

/-- What a step or a meaning answers. -/
abbrev Result := Host.Outcome State Fault Refusal

/-- Every register at 0: `clear_all` (R25, R40). -/
def Regs.zero : Regs :=
  { a := 0, x := 0, l := 0, b := 0, s := 0, t := 0, f := 0, pc := 0, sw := 0 }

/-- The machine after reset (R40, R330, R332): every register 0, Running, no history, no fault, every
memory byte 0.  The memory has the spec's default size (log 1); no draw has been taken (log 2). -/
def State.reset : State :=
  { regs := Regs.zero, mem := { size := Config.memSize, cells := [] }, halted := false, fault := none,
    history := [], lastLog := none, draws := 0 }

end Sys2Proof.Machine
end

