-- ==== Sys2Proof/Machine/Ops.lean ====
section
/-! DEFINITION. The named operations on registers and memory, taking a failure and leaving it by reset. -/

namespace Sys2Proof.Machine

/-! ### Registers (spec/10_state.md section 1) -/

/-- The register a 4-bit format-2 number names; 7 and 10 to 15 name none (R22). -/
def regNumber (n : BitVec 4) : Option RegName :=
  match n.toNat with
  | 0 => some .a
  | 1 => some .x
  | 2 => some .l
  | 3 => some .b
  | 4 => some .s
  | 5 => some .t
  | 6 => some .f
  | 8 => some .pc
  | 9 => some .sw
  | _ => none

/-- The 24-bit register of a name; F has none (R20). -/
def narrow : RegName → Option Reg24
  | .a => some .a
  | .x => some .x
  | .l => some .l
  | .b => some .b
  | .s => some .s
  | .t => some .t
  | .f => none
  | .pc => some .pc
  | .sw => some .sw

/-- Read a 24-bit register. -/
def Regs.get (g : Regs) : Reg24 → Word
  | .a => g.a
  | .x => g.x
  | .l => g.l
  | .b => g.b
  | .s => g.s
  | .t => g.t
  | .pc => g.pc
  | .sw => g.sw

/-- Write a 24-bit register; no register is hard-wired (R21). -/
def Regs.set (g : Regs) (r : Reg24) (v : Word) : Regs :=
  match r with
  | .a => { g with a := v }
  | .x => { g with x := v }
  | .l => { g with l := v }
  | .b => { g with b := v }
  | .s => { g with s := v }
  | .t => { g with t := v }
  | .pc => { g with pc := v }
  | .sw => { g with sw := v }

/-- Read a 24-bit register of the machine. -/
def State.reg (s : State) (r : Reg24) : Word := s.regs.get r

/-- Write a 24-bit register of the machine. -/
def State.setReg (s : State) (r : Reg24) (v : Word) : State := { s with regs := s.regs.set r v }

/-- Read F through its 48-bit accessor (R32). -/
def State.regF (s : State) : FWord := s.regs.f

/-- Write F (R32). -/
def State.setF (s : State) (v : FWord) : State := { s with regs := { s.regs with f := v } }

/-- `clear(name)`: set one register to 0, whatever its width (R25). -/
def State.clearReg (s : State) (r : RegName) : State :=
  match narrow r with
  | some q => s.setReg q 0
  | none => s.setF 0

/-! ### Memory (spec/20_memory.md) -/

/-- What an unlisted address reads as: 0, the reset contents (R40, R59, R70). -/
def Memory.unlisted : Byte := 0#8

/-- The byte listed for an address, or the unlisted byte. -/
def cellsGet : List Host.Cell → Nat → Byte
  | [], _ => Memory.unlisted
  | (k, v) :: rest, a => if k = a then v else cellsGet rest a

/-- The cells with the byte at `a` replaced: sorted by address, the unlisted byte never listed. -/
def cellsPut : List Host.Cell → Nat → Byte → List Host.Cell
  | [], a, v => if v = Memory.unlisted then [] else [(a, v)]
  | (k, w) :: rest, a, v =>
    if k < a then (k, w) :: cellsPut rest a v
    else if k = a then (if v = Memory.unlisted then rest else (a, v) :: rest)
    else if v = Memory.unlisted then (k, w) :: rest else (a, v) :: (k, w) :: rest

/-- The byte at an address, with no bounds check. -/
def Memory.get (m : Memory) (a : Nat) : Byte := cellsGet m.cells a

/-- The memory with the byte at `a` replaced, with no bounds check. -/
def Memory.put (m : Memory) (a : Nat) (v : Byte) : Memory := { m with cells := cellsPut m.cells a v }

/-- Every listed address is at least `lo` and below `size`, addresses strictly rise, and no listed byte
is the unlisted one. -/
def cellsWf (size : Nat) : Nat → List Host.Cell → Bool
  | _, [] => true
  | lo, (k, v) :: rest =>
    decide (lo ≤ k) && decide (k < size) && decide (v ≠ Memory.unlisted) && cellsWf size (k + 1) rest

/-- The canonical form of memory, by which equal memories are equal data.  DESIGN CHOICE (log 8, safe). -/
def Memory.wf (m : Memory) : Bool := cellsWf m.size 0 m.cells

/-- The bounds rule of R54 for an access of `n` bytes at `a`. -/
abbrev Memory.InBounds (m : Memory) (a n : Nat) : Prop := a + n ≤ m.size

/-- The 3 bytes at `a` as a big-endian word (R53, R60). -/
def Memory.word (m : Memory) (a : Nat) : Word := (m.get a ++ m.get (a + 1) : BitVec 16) ++ m.get (a + 2)

/-- The 3 bytes of a word put at `a`, most significant first (R53, R60). -/
def Memory.putWord (m : Memory) (a : Nat) (v : Word) : Memory :=
  ((m.put a (v.extractLsb' 16 8)).put (a + 1) (v.extractLsb' 8 8)).put (a + 2) (v.extractLsb' 0 8)

/-- `read_byte` (R52). -/
def Memory.readByte (m : Memory) (a : Nat) : Except Failure Byte :=
  if m.InBounds a 1 then .ok (m.get a) else .error (.addressError (.memory a))

/-- `write_byte` (R52). -/
def Memory.writeByte (m : Memory) (a : Nat) (v : Byte) : Except Failure Memory :=
  if m.InBounds a 1 then .ok (m.put a v) else .error (.addressError (.memory a))

/-- The checks of a word-level access of `n` bytes at `a`: alignment (R63), then bounds (R54), in that
order (R65); every check comes before any byte is moved (R58). -/
def Memory.checkWords (m : Memory) (a n : Nat) : Except Failure Unit :=
  if a % 3 = 0 then
    if m.InBounds a n then .ok () else .error (.addressError (.memory a))
  else .error (.alignmentError a)

/-- `read_word` (R53). -/
def Memory.readWord (m : Memory) (a : Nat) : Except Failure Word :=
  match m.checkWords a 3 with
  | .ok () => .ok (m.word a)
  | .error k => .error k

/-- `write_word` (R53). -/
def Memory.writeWord (m : Memory) (a : Nat) (v : Word) : Except Failure Memory :=
  match m.checkWords a 3 with
  | .ok () => .ok (m.putWord a v)
  | .error k => .error k

/-- The 6-byte read of ADDF and SUBF: `read_word(a) : read_word(a + 3)`, checked as one access (R56). -/
def Memory.readPair (m : Memory) (a : Nat) : Except Failure FWord :=
  match m.checkWords a 6 with
  | .ok () => .ok (m.word a ++ m.word (a + 3))
  | .error k => .error k

/-- `read_extended`: 4 bytes, big-endian, no alignment requirement (R55). -/
def Memory.readExtended (m : Memory) (a : Nat) : Except Failure (BitVec 32) :=
  if m.InBounds a 4 then .ok (m.word a ++ m.get (a + 3)) else .error (.addressError (.memory a))

/-- `write_extended`, which no admitted instruction uses (R55).  DESIGN CHOICE (log 7, unsafe): the inverse of
`read_extended`, since the spec says only that it exists. -/
def Memory.writeExtended (m : Memory) (a : Nat) (v : BitVec 32) : Except Failure Memory :=
  if m.InBounds a 4 then .ok ((m.putWord a (v.extractLsb' 8 24)).put (a + 3) (v.extractLsb' 0 8))
  else .error (.addressError (.memory a))

/-- Memory's `reset()`: every byte 0 (R59). -/
def Memory.cleared (m : Memory) : Memory := { m with cells := [] }

/-! ### The step's shared transitions (spec/40_cycle_dispatch.md, 60_exceptions.md) -/

/-- Phase 2: the PC advanced by an instruction's size, wrapping at 24 bits (R28, R123). -/
def State.advance (s : State) (size : Nat) : State :=
  s.setReg .pc (s.reg .pc + BitVec.ofNat 24 size)

/-- Taking a failure: the ControlUnit records its kind and `pc_fetch`; there is no trap entry, no saved
register and no change of `halted` or `history` (R301, R310). -/
def State.raise (s : State) (k : Failure) (pcFetch : Word) : State :=
  { s with fault := some { kind := k, pcFetch := pcFetch } }

/-- `reset()`: the only way out of Faulted and of Halted (R311, R325, R330).  The size of the buffer
stays, and so does the model's draw counter, since a reset does not repeat earlier draws (log 2). -/
def resetMachine (s : State) : State :=
  { regs := Regs.zero, mem := s.mem.cleared, halted := false, fault := none,
    history := [], lastLog := none, draws := s.draws }

/-- The halt signal (R137). -/
def State.signalHalt (s : State) : State := { s with halted := true }

/-- Phase 5: append the trace entry to the history and make it `last_log` (R126). -/
def State.log (s : State) (e : TraceEntry) : State :=
  { s with history := s.history ++ [e], lastLog := some e }

/-- The end of a step after the PC advance that gave `s`: a failure is taken with `s` otherwise as it is
(R125, R135, R303), a completed executor is logged (R126). -/
def finish (s : State) (e : TraceEntry) : Except Failure State → State
  | .error k => s.raise k e.pcFetch
  | .ok t => t.log e

end Sys2Proof.Machine
end

