-- ==== Sys2Proof/Machine/Flags.lean ====
section
/-! DEFINITION. The condition code: the only flag of the machine (R29, R31). -/

namespace Sys2Proof.Machine

/-- The condition code of a result: 0 if zero, 1 if negative, 2 if positive (R29, R133). -/
def codeOfInt (v : Int) : Word := if v = 0 then 0 else if v < 0 then 1 else 2

/-- `set_cc_24`'s value: the result read as 24-bit two's complement (R133). -/
def code24 (v : Word) : Word := codeOfInt v.toInt

/-- `set_cc_48`'s value: the result read as 48-bit two's complement (R133). -/
def code48 (v : FWord) : Word := codeOfInt v.toInt

/-- `cmp(a, b)`: exact signed comparison, 0 equal, 1 less, 2 greater (R189). -/
def compareCode (a b : Word) : Word :=
  if a.toInt = b.toInt then 0 else if a.toInt < b.toInt then 1 else 2

/-- Write the condition code: the whole of SW (R29, R133). -/
def State.setCode (s : State) (c : Word) : State := s.setReg .sw c

/-- Write a 24-bit destination, then SW from the value written, in that order (R134, R135). -/
def State.writeResult (s : State) (r : Reg24) (v : Word) : State := (s.setReg r v).setCode (code24 v)

/-- Write F, then SW from the value written (R134, R135). -/
def State.writeResultF (s : State) (v : FWord) : State := (s.setF v).setCode (code48 v)

end Sys2Proof.Machine
end

