-- ==== Sys2Proof/Machine/Operands.lean ====
section
/-! DEFINITION. Addressing modes and the effective address (spec/30_encoding.md section 4), the operands
of the executors (R131, R180), and the three ways an executor is run (R120 to R126). -/

namespace Sys2Proof.Machine

/-! ### Addressing -/

/-- The addressing modes (R92). -/
inductive Mode
  | immediate | indirect | simple
  deriving DecidableEq, Repr

/-- The mode, decided by n and i alone (R92). -/
def modeOf (o : Operand) : Mode :=
  match o.n, o.i with
  | false, true => .immediate
  | true, false => .indirect
  | false, false => .simple
  | true, true => .simple

/-- The 12-bit displacement of a format-3 instruction (R91). -/
def dispOf (o : Operand) : BitVec 12 := o.field.setWidth 12

/-- The literal of an immediate instruction: disp sign-extended (R94), addr zero-extended (R95). -/
def immediateOf (o : Operand) : Word :=
  if o.e then o.field.setWidth 24 else (dispOf o).signExtend 24

/-- The value field as TA's first term: signed only for a format-3 PC-relative displacement (R97). -/
def baseField (o : Operand) : Int :=
  if o.e then o.field.toNat else if o.p then (dispOf o).toInt else (dispOf o).toNat

/-- The post-fetch PC of a format-3/4 instruction at the current PC (R97). -/
def postPc (o : Operand) (s : State) : Word := s.reg .pc + BitVec.ofNat 24 o.format.size

/-- The register term of TA: the post-fetch PC, else B, else nothing (R97, R100, R103). -/
def relativeTerm (o : Operand) (s : State) : Int :=
  if o.p then (postPc o s).toNat else if o.b then (s.reg .b).toNat else 0

/-- The index term of TA (R97). -/
def indexTerm (o : Operand) (s : State) : Int := if o.x then (s.reg .x).toNat else 0

/-- The target address TA, the exact sum reduced mod 2^24 (R97, R101). -/
def targetAddress (o : Operand) (s : State) : Word :=
  BitVec.ofInt 24 (baseField o + relativeTerm o s + indexTerm o s)

/-- The effective address: the literal (R96), the word at TA (R98), or TA (R99).  `s` is the state at fetch. -/
def effectiveAddress (o : Operand) (s : State) : Except Failure Word :=
  match modeOf o with
  | .immediate => .ok (immediateOf o)
  | .indirect => s.mem.readWord (targetAddress o s).toNat
  | .simple => .ok (targetAddress o s)

/-! ### Operands of format-3/4 executors (R131) -/

/-- `OperandWord`: the literal, or the word at EA. -/
def operandWord (o : Operand) (ea : Word) (m : Memory) : Except Failure Word :=
  match modeOf o with
  | .immediate => .ok ea
  | .indirect => m.readWord ea.toNat
  | .simple => m.readWord ea.toNat

/-- `OperandByte`: the low byte of the literal, or the byte at EA. -/
def operandByte (o : Operand) (ea : Word) (m : Memory) : Except Failure Byte :=
  match modeOf o with
  | .immediate => .ok (ea.setWidth 8)
  | .indirect => m.readByte ea.toNat
  | .simple => m.readByte ea.toNat

/-- The mode check of stores, ADDF and SUBF: immediate mode is refused (R132). -/
def refuseImmediate (op : Byte) (o : Operand) : Except Failure Unit :=
  match modeOf o with
  | .immediate => .error (.illegalAddressingMode op)
  | .indirect => .ok ()
  | .simple => .ok ()

/-- `OperandF`: the 6 bytes at EA; immediate mode is refused first (R131, R132, R305). -/
def operandF (op : Byte) (o : Operand) (ea : Word) (m : Memory) : Except Failure FWord :=
  match refuseImmediate op o with
  | .error k => .error k
  | .ok () => m.readPair ea.toNat

/-! ### Operands of format-2 executors (R180) -/

/-- `regop24`: the 24-bit register a number names; AddressError for a number that names none,
WidthMismatch for F. -/
def regop24 (n : BitVec 4) : Except Failure Reg24 :=
  match regNumber n with
  | none => .error (.addressError (.register n))
  | some r =>
    match narrow r with
    | none => .error (.widthMismatch r)
    | some q => .ok q

/-! ### Running an executor -/

/-- A format-3/4 instruction, from the state at fetch: EA (a failure of phase 1 leaves all but the fault
record, R122), the PC advance (R123), the executor `body` given EA and the advanced state (R124, R125),
then the log (R126). -/
def runOperand (op : Byte) (o : Operand) (body : Word → State → Except Failure State) (s : State) : Result :=
  match effectiveAddress o s with
  | .error k => .next (s.raise k (s.reg .pc))
  | .ok ea =>
    let s1 := s.advance o.format.size
    .next (finish s1 { pcFetch := s.reg .pc, opcode := op, format := o.format, ea := some ea } (body ea s1))

/-- A format-2 instruction: no EA (R105). -/
def runRegs (op : Byte) (body : State → Except Failure State) (s : State) : Result :=
  let s1 := s.advance Format.f2.size
  .next (finish s1 { pcFetch := s.reg .pc, opcode := op, format := .f2, ea := none } (body s1))

/-- A format-1 instruction: no EA, no operand (R105, R112). -/
def runPlain (op : Byte) (body : State → Except Failure State) (s : State) : Result :=
  let s1 := s.advance Format.f1.size
  .next (finish s1 { pcFetch := s.reg .pc, opcode := op, format := .f1, ea := none } (body s1))

/-- A format-3/4 encoding with no registered executor: UnsupportedOpcode at dispatch, after the
decode-phase checks and the PC advance (R129, R305). -/
def unsupportedOperand (op : Byte) (o : Operand) (s : State) : Result :=
  runOperand op o (fun _ _ => .error (.unsupportedOpcode op o.format)) s

/-- A format-2 encoding with no registered executor (R129). -/
def unsupportedRegs (op : Byte) (s : State) : Result :=
  runRegs op (fun _ => .error (.unsupportedOpcode op .f2)) s

/-- A format-1 encoding with no registered executor (R129). -/
def unsupportedPlain (op : Byte) (s : State) : Result :=
  runPlain op (fun _ => .error (.unsupportedOpcode op .f1)) s

end Sys2Proof.Machine
end

