-- ==== Sys2Proof/Machine/Arithmetic.lean ====
section
/-! DEFINITION. The arithmetic family (spec/41_arithmetic.md). -/

namespace Sys2Proof.Machine

/-! ### Shared operations -/

/-- `mask_24(trunc(signed_24(a) / signed_24(b)))`; the one overflowing quotient wraps (R153, R162). -/
def quotient (a b : Word) : Word := BitVec.ofInt 24 (a.toInt.tdiv b.toInt)

/-- A on the left, OperandWord on the right, the result to A with its condition code (R150). -/
def accumulate (f : Word → Word → Word) (o : Operand) (ea : Word) (s : State) : Except Failure State :=
  match operandWord o ea s.mem with
  | .error k => .error k
  | .ok m => .ok (s.writeResult .a (f (s.reg .a) m))

/-- The register form `r2 <- f(r2, r1)`: r1 checked before r2, both before any read (R154, R180). -/
def combineRegs (f : Word → Word → Except Failure Word) (r1 r2 : BitVec 4) (s : State) : Except Failure State :=
  match regop24 r1 with
  | .error k => .error k
  | .ok src =>
    match regop24 r2 with
    | .error k => .error k
    | .ok dst =>
      match f (s.reg dst) (s.reg src) with
      | .error k => .error k
      | .ok v => .ok (s.writeResult dst v)

/-- F on the left, the 48-bit operand on the right, the result to F with its condition code (R160). -/
def accumulateF (f : FWord → FWord → FWord) (op : Byte) (o : Operand) (ea : Word) (s : State) :
    Except Failure State :=
  match operandF op o ea s.mem with
  | .error k => .error k
  | .ok m => .ok (s.writeResultF (f s.regF m))

/-- DIV after its operand is read: the divisor's zero check comes last (R153, R305). -/
def divideA (o : Operand) (ea : Word) (s : State) : Except Failure State :=
  match operandWord o ea s.mem with
  | .error k => .error k
  | .ok m =>
    if m = 0 then .error (.arithmeticError .div) else .ok (s.writeResult .a (quotient (s.reg .a) m))

/-! ### The instructions -/

/-- ADD (R150). -/
def execAdd (o : Operand) (s : State) : Result :=
  runOperand (opcodeOf (.add o)) o (accumulate (fun a m => a + m) o) s

/-- SUB (R151). -/
def execSub (o : Operand) (s : State) : Result :=
  runOperand (opcodeOf (.sub o)) o (accumulate (fun a m => a - m) o) s

/-- MUL: the low 24 bits of the product (R152). -/
def execMul (o : Operand) (s : State) : Result :=
  runOperand (opcodeOf (.mul o)) o (accumulate (fun a m => a * m) o) s

/-- DIV (R153). -/
def execDiv (o : Operand) (s : State) : Result :=
  runOperand (opcodeOf (.div o)) o (divideA o) s

/-- ADDR (R154). -/
def execAddr (r1 r2 : BitVec 4) (s : State) : Result :=
  runRegs (opcodeOf (.addr r1 r2)) (combineRegs (fun v2 v1 => .ok (v2 + v1)) r1 r2) s

/-- SUBR (R155). -/
def execSubr (r1 r2 : BitVec 4) (s : State) : Result :=
  runRegs (opcodeOf (.subr r1 r2)) (combineRegs (fun v2 v1 => .ok (v2 - v1)) r1 r2) s

/-- MULR (R156). -/
def execMulr (r1 r2 : BitVec 4) (s : State) : Result :=
  runRegs (opcodeOf (.mulr r1 r2)) (combineRegs (fun v2 v1 => .ok (v2 * v1)) r1 r2) s

/-- DIVR: r1 is the divisor (R157). -/
def execDivr (r1 r2 : BitVec 4) (s : State) : Result :=
  runRegs (opcodeOf (.divr r1 r2))
    (combineRegs (fun v2 v1 => if v1 = 0 then .error (.arithmeticError .divr) else .ok (quotient v2 v1)) r1 r2) s

/-- ADDF: 48-bit integer addition (R160). -/
def execAddf (o : Operand) (s : State) : Result :=
  runOperand (opcodeOf (.addf o)) o (accumulateF (fun f m => f + m) (opcodeOf (.addf o)) o) s

/-- SUBF: 48-bit integer subtraction (R161). -/
def execSubf (o : Operand) (s : State) : Result :=
  runOperand (opcodeOf (.subf o)) o (accumulateF (fun f m => f - m) (opcodeOf (.subf o)) o) s

/-- MULF: no executor (R129). -/
def execMulf (o : Operand) (s : State) : Result := unsupportedOperand (opcodeOf (.mulf o)) o s

/-- DIVF: no executor (R129). -/
def execDivf (o : Operand) (s : State) : Result := unsupportedOperand (opcodeOf (.divf o)) o s

/-- FLOAT: no executor (R129). -/
def execFloat (s : State) : Result := unsupportedPlain (opcodeOf .float) s

/-- FIX: no executor (R129). -/
def execFix (s : State) : Result := unsupportedPlain (opcodeOf .fix) s

/-- NORM: no executor (R129). -/
def execNorm (s : State) : Result := unsupportedPlain (opcodeOf .norm) s

end Sys2Proof.Machine
end

