-- ==== Sys2Proof/Machine/Control.lean ====
section
/-! DEFINITION. The control-transfer family (spec/45_control_transfer.md). -/

namespace Sys2Proof.Machine

/-! ### Shared operations -/

/-- A jump to EA taken when the condition code is `c`; not taken, the PC keeps its post-fetch value (R256). -/
def jumpOnCode (c : Word) (ea : Word) (s : State) : Except Failure State :=
  if s.reg .sw = c then .ok (s.setReg .pc ea) else .ok s

/-- RSUB's executor: PC from L, and the halt signal when L is 0 (R255). -/
def returnToL (s : State) : State :=
  let t := s.setReg .pc (s.reg .l)
  if s.reg .l = 0 then t.signalHalt else t

/-! ### The instructions -/

/-- J (R250). -/
def execJ (o : Operand) (s : State) : Result :=
  runOperand (opcodeOf (.j o)) o (fun ea t => .ok (t.setReg .pc ea)) s

/-- JEQ: condition code 0 (R251). -/
def execJeq (o : Operand) (s : State) : Result := runOperand (opcodeOf (.jeq o)) o (jumpOnCode 0) s

/-- JLT: condition code 1 (R252). -/
def execJlt (o : Operand) (s : State) : Result := runOperand (opcodeOf (.jlt o)) o (jumpOnCode 1) s

/-- JGT: condition code 2 (R253). -/
def execJgt (o : Operand) (s : State) : Result := runOperand (opcodeOf (.jgt o)) o (jumpOnCode 2) s

/-- JSUB: L takes the post-fetch PC, then the PC takes EA (R254). -/
def execJsub (o : Operand) (s : State) : Result :=
  runOperand (opcodeOf (.jsub o)) o (fun ea t => .ok ((t.setReg .l (t.reg .pc)).setReg .pc ea)) s

/-- RSUB: EA is computed and ignored (R255). -/
def execRsub (o : Operand) (s : State) : Result :=
  runOperand (opcodeOf (.rsub o)) o (fun _ t => .ok (returnToL t)) s

end Sys2Proof.Machine
end

