-- ==== Sys2Proof/Machine/Load.lean ====
section
/-! DEFINITION. The load family (spec/43_load.md). -/

namespace Sys2Proof.Machine

/-! ### Shared operations -/

/-- A word load: the destination, then SW from its new value (R217). -/
def loadWord (r : Reg24) (o : Operand) (ea : Word) (s : State) : Except Failure State :=
  match operandWord o ea s.mem with
  | .error k => .error k
  | .ok m => .ok (s.writeResult r m)

/-- `(v & 0xFFFF00) | c`: the low byte replaced (R212). -/
def withLowByte (v : Word) (c : Byte) : Word := (v &&& 0xFFFF00#24) ||| c.setWidth 24

/-- LDCH's executor: the low byte of A, then SW from the whole of A (R212). -/
def loadByte (o : Operand) (ea : Word) (s : State) : Except Failure State :=
  match operandByte o ea s.mem with
  | .error k => .error k
  | .ok c => .ok (s.writeResult .a (withLowByte (s.reg .a) c))

/-! ### The instructions -/

/-- LDA (R210). -/
def execLda (o : Operand) (s : State) : Result := runOperand (opcodeOf (.lda o)) o (loadWord .a o) s

/-- LDB (R211). -/
def execLdb (o : Operand) (s : State) : Result := runOperand (opcodeOf (.ldb o)) o (loadWord .b o) s

/-- LDL (R213). -/
def execLdl (o : Operand) (s : State) : Result := runOperand (opcodeOf (.ldl o)) o (loadWord .l o) s

/-- LDS (R214). -/
def execLds (o : Operand) (s : State) : Result := runOperand (opcodeOf (.lds o)) o (loadWord .s o) s

/-- LDT (R215). -/
def execLdt (o : Operand) (s : State) : Result := runOperand (opcodeOf (.ldt o)) o (loadWord .t o) s

/-- LDX (R216). -/
def execLdx (o : Operand) (s : State) : Result := runOperand (opcodeOf (.ldx o)) o (loadWord .x o) s

/-- LDCH (R212). -/
def execLdch (o : Operand) (s : State) : Result := runOperand (opcodeOf (.ldch o)) o (loadByte o) s

/-- LDF: no executor (R129). -/
def execLdf (o : Operand) (s : State) : Result := unsupportedOperand (opcodeOf (.ldf o)) o s

end Sys2Proof.Machine
end

