-- ==== Sys2Proof/Machine/Logic.lean ====
section
/-! DEFINITION. The logic, compare, shift and clear family (spec/42_logic_compare.md). -/

namespace Sys2Proof.Machine

/-! ### Shared operations -/

/-- The count of a shift, `n = r2 + 1`, from 1 to 16 (R187). -/
def shiftCount (r2 : BitVec 4) : Nat := r2.toNat + 1

/-- Rotation left by `n` bits (R187). -/
def rotateLeft (v : Word) (n : Nat) : Word := (v <<< n) ||| (v >>> (24 - n))

/-- Arithmetic shift right by `n` bits: the floor of `signed_24(v) / 2^n` (R188). -/
def shiftRight (v : Word) (n : Nat) : Word := BitVec.ofInt 24 (v.toInt.fdiv (2 ^ n))

/-- A register shifted by the count of r2 (R187, R188). -/
def shiftReg (f : Word → Nat → Word) (r1 r2 : BitVec 4) (s : State) : Except Failure State :=
  match regop24 r1 with
  | .error k => .error k
  | .ok d => .ok (s.writeResult d (f (s.reg d) (shiftCount r2)))

/-- COMP's executor: SW only (R183). -/
def compareA (o : Operand) (ea : Word) (s : State) : Except Failure State :=
  match operandWord o ea s.mem with
  | .error k => .error k
  | .ok m => .ok (s.setCode (compareCode (s.reg .a) m))

/-- COMPR's executor: r1 checked before r2; SW is read before it is written (R184). -/
def compareRegs (r1 r2 : BitVec 4) (s : State) : Except Failure State :=
  match regop24 r1 with
  | .error k => .error k
  | .ok p =>
    match regop24 r2 with
    | .error k => .error k
    | .ok q => .ok (s.setCode (compareCode (s.reg p) (s.reg q)))

/-- TIXR's executor: X is written before r1 is read, SW last (R185). -/
def incrementCompare (r1 : BitVec 4) (s : State) : Except Failure State :=
  match regop24 r1 with
  | .error k => .error k
  | .ok q =>
    let s1 := s.setReg .x (s.reg .x + 1)
    .ok (s1.setCode (compareCode (s1.reg .x) (s1.reg q)))

/-- CLEAR's executor: any register the number names, F included; SW is set to 0 after it (R186). -/
def clearNumbered (r1 : BitVec 4) (s : State) : Except Failure State :=
  match regNumber r1 with
  | none => .error (.addressError (.register r1))
  | some r => .ok ((s.clearReg r).setCode (codeOfInt 0))

/-! ### The instructions -/

/-- AND (R181). -/
def execAnd (o : Operand) (s : State) : Result :=
  runOperand (opcodeOf (.and o)) o (accumulate (fun a m => a &&& m) o) s

/-- OR (R182). -/
def execOr (o : Operand) (s : State) : Result :=
  runOperand (opcodeOf (.or o)) o (accumulate (fun a m => a ||| m) o) s

/-- COMP (R183). -/
def execComp (o : Operand) (s : State) : Result :=
  runOperand (opcodeOf (.comp o)) o (compareA o) s

/-- COMPR (R184). -/
def execCompr (r1 r2 : BitVec 4) (s : State) : Result :=
  runRegs (opcodeOf (.compr r1 r2)) (compareRegs r1 r2) s

/-- TIXR; r2 is ignored (R112, R185). -/
def execTixr (r1 r2 : BitVec 4) (s : State) : Result :=
  runRegs (opcodeOf (.tixr r1 r2)) (incrementCompare r1) s

/-- CLEAR; r2 is ignored (R112, R186). -/
def execClear (r1 r2 : BitVec 4) (s : State) : Result :=
  runRegs (opcodeOf (.clear r1 r2)) (clearNumbered r1) s

/-- SHIFTL: rotate left (R187). -/
def execShiftl (r1 r2 : BitVec 4) (s : State) : Result :=
  runRegs (opcodeOf (.shiftl r1 r2)) (shiftReg rotateLeft r1 r2) s

/-- SHIFTR: arithmetic shift right (R188). -/
def execShiftr (r1 r2 : BitVec 4) (s : State) : Result :=
  runRegs (opcodeOf (.shiftr r1 r2)) (shiftReg shiftRight r1 r2) s

/-- TIX: no executor (R129). -/
def execTix (o : Operand) (s : State) : Result := unsupportedOperand (opcodeOf (.tix o)) o s

/-- COMPF: no executor (R129). -/
def execCompf (o : Operand) (s : State) : Result := unsupportedOperand (opcodeOf (.compf o)) o s

/-- RMO: no executor (R129). -/
def execRmo (r1 r2 : BitVec 4) (s : State) : Result := unsupportedRegs (opcodeOf (.rmo r1 r2)) s

end Sys2Proof.Machine
end

