-- ==== Sys2Proof/Machine/Store.lean ====
section
/-! DEFINITION. The store family (spec/44_store.md). -/

namespace Sys2Proof.Machine

/-! ### Shared operations -/

/-- A word store of a register at EA: the mode check, then alignment and bounds, then the write; no
register and no condition code is written (R237). -/
def storeWord (op : Byte) (r : Reg24) (o : Operand) (ea : Word) (s : State) : Except Failure State :=
  match refuseImmediate op o with
  | .error k => .error k
  | .ok () =>
    match s.mem.writeWord ea.toNat (s.reg r) with
    | .error k => .error k
    | .ok m => .ok { s with mem := m }

/-- STCH's executor: the low byte of A at EA, with no alignment requirement (R232). -/
def storeByte (op : Byte) (o : Operand) (ea : Word) (s : State) : Except Failure State :=
  match refuseImmediate op o with
  | .error k => .error k
  | .ok () =>
    match s.mem.writeByte ea.toNat ((s.reg .a).extractLsb' 0 8) with
    | .error k => .error k
    | .ok m => .ok { s with mem := m }

/-! ### The instructions -/

/-- STA (R230). -/
def execSta (o : Operand) (s : State) : Result :=
  runOperand (opcodeOf (.sta o)) o (storeWord (opcodeOf (.sta o)) .a o) s

/-- STB (R231). -/
def execStb (o : Operand) (s : State) : Result :=
  runOperand (opcodeOf (.stb o)) o (storeWord (opcodeOf (.stb o)) .b o) s

/-- STL (R233). -/
def execStl (o : Operand) (s : State) : Result :=
  runOperand (opcodeOf (.stl o)) o (storeWord (opcodeOf (.stl o)) .l o) s

/-- STS (R234). -/
def execSts (o : Operand) (s : State) : Result :=
  runOperand (opcodeOf (.sts o)) o (storeWord (opcodeOf (.sts o)) .s o) s

/-- STT (R235). -/
def execStt (o : Operand) (s : State) : Result :=
  runOperand (opcodeOf (.stt o)) o (storeWord (opcodeOf (.stt o)) .t o) s

/-- STX (R236). -/
def execStx (o : Operand) (s : State) : Result :=
  runOperand (opcodeOf (.stx o)) o (storeWord (opcodeOf (.stx o)) .x o) s

/-- STCH (R232). -/
def execStch (o : Operand) (s : State) : Result :=
  runOperand (opcodeOf (.stch o)) o (storeByte (opcodeOf (.stch o)) o) s

/-- STF: no executor (R129). -/
def execStf (o : Operand) (s : State) : Result := unsupportedOperand (opcodeOf (.stf o)) o s

/-- STI: no executor (R129). -/
def execSti (o : Operand) (s : State) : Result := unsupportedOperand (opcodeOf (.sti o)) o s

/-- STSW: no executor (R129). -/
def execStsw (o : Operand) (s : State) : Result := unsupportedOperand (opcodeOf (.stsw o)) o s

end Sys2Proof.Machine
end

