-- ==== Sys2Proof/Machine/System.lean ====
section
/-! DEFINITION. The system pseudo-ops (spec/46_system.md). -/

namespace Sys2Proof.Machine

/-! ### Shared operations -/

/-- RD's executor: A takes the next draw, SW stays (R276; log 2). -/
def readDevice (s : State) : State :=
  { s.setReg .a (Config.ioRdValue s.draws) with draws := s.draws + 1 }

/-- TD's executor: SW takes the next draw, one of 0, 1, 2 (R277; log 2). -/
def testDevice (s : State) : State :=
  { s.setCode (BitVec.ofNat 24 (Config.ioTdValue s.draws).val) with draws := s.draws + 1 }

/-! ### The instructions -/

/-- LPS: no state change (R270). -/
def execLps (o : Operand) (s : State) : Result := runOperand (opcodeOf (.lps o)) o (fun _ t => .ok t) s

/-- SSK: no state change (R271). -/
def execSsk (o : Operand) (s : State) : Result := runOperand (opcodeOf (.ssk o)) o (fun _ t => .ok t) s

/-- RD (R276). -/
def execRd (o : Operand) (s : State) : Result :=
  runOperand (opcodeOf (.rd o)) o (fun _ t => .ok (readDevice t)) s

/-- TD (R277). -/
def execTd (o : Operand) (s : State) : Result :=
  runOperand (opcodeOf (.td o)) o (fun _ t => .ok (testDevice t)) s

/-- WD: no state change (R275). -/
def execWd (o : Operand) (s : State) : Result := runOperand (opcodeOf (.wd o)) o (fun _ t => .ok t) s

/-- SIO: no state change (R272). -/
def execSio (s : State) : Result := runPlain (opcodeOf .sio) (fun t => .ok t) s

/-- TIO: no state change (R273). -/
def execTio (s : State) : Result := runPlain (opcodeOf .tio) (fun t => .ok t) s

/-- SVC: the halt signal, its fields ignored (R112, R280). -/
def execSvc (r1 r2 : BitVec 4) (s : State) : Result :=
  runRegs (opcodeOf (.svc r1 r2)) (fun t => .ok t.signalHalt) s

/-- HIO: no executor (R129). -/
def execHio (s : State) : Result := unsupportedPlain (opcodeOf .hio) s

end Sys2Proof.Machine
end

