-- ==== Sys2Proof/Machine/Dispatch.lean ====
section
/-! DEFINITION. The dispatcher: one arm per instruction (R125, R128, R129). -/

namespace Sys2Proof.Machine

def exec (i : Instr) (s : State) : Host.Outcome State Fault Refusal :=
  match i with
  | .lda o => Sys2Proof.Machine.execLda o s
  | .ldx o => Sys2Proof.Machine.execLdx o s
  | .ldl o => Sys2Proof.Machine.execLdl o s
  | .sta o => Sys2Proof.Machine.execSta o s
  | .stx o => Sys2Proof.Machine.execStx o s
  | .stl o => Sys2Proof.Machine.execStl o s
  | .add o => Sys2Proof.Machine.execAdd o s
  | .sub o => Sys2Proof.Machine.execSub o s
  | .mul o => Sys2Proof.Machine.execMul o s
  | .div o => Sys2Proof.Machine.execDiv o s
  | .comp o => Sys2Proof.Machine.execComp o s
  | .tix o => Sys2Proof.Machine.execTix o s
  | .jeq o => Sys2Proof.Machine.execJeq o s
  | .jgt o => Sys2Proof.Machine.execJgt o s
  | .jlt o => Sys2Proof.Machine.execJlt o s
  | .j o => Sys2Proof.Machine.execJ o s
  | .and o => Sys2Proof.Machine.execAnd o s
  | .or o => Sys2Proof.Machine.execOr o s
  | .jsub o => Sys2Proof.Machine.execJsub o s
  | .rsub o => Sys2Proof.Machine.execRsub o s
  | .ldch o => Sys2Proof.Machine.execLdch o s
  | .stch o => Sys2Proof.Machine.execStch o s
  | .addf o => Sys2Proof.Machine.execAddf o s
  | .subf o => Sys2Proof.Machine.execSubf o s
  | .mulf o => Sys2Proof.Machine.execMulf o s
  | .divf o => Sys2Proof.Machine.execDivf o s
  | .ldb o => Sys2Proof.Machine.execLdb o s
  | .lds o => Sys2Proof.Machine.execLds o s
  | .ldf o => Sys2Proof.Machine.execLdf o s
  | .ldt o => Sys2Proof.Machine.execLdt o s
  | .stb o => Sys2Proof.Machine.execStb o s
  | .sts o => Sys2Proof.Machine.execSts o s
  | .stf o => Sys2Proof.Machine.execStf o s
  | .stt o => Sys2Proof.Machine.execStt o s
  | .compf o => Sys2Proof.Machine.execCompf o s
  | .addr r1 r2 => Sys2Proof.Machine.execAddr r1 r2 s
  | .subr r1 r2 => Sys2Proof.Machine.execSubr r1 r2 s
  | .mulr r1 r2 => Sys2Proof.Machine.execMulr r1 r2 s
  | .divr r1 r2 => Sys2Proof.Machine.execDivr r1 r2 s
  | .compr r1 r2 => Sys2Proof.Machine.execCompr r1 r2 s
  | .shiftl r1 r2 => Sys2Proof.Machine.execShiftl r1 r2 s
  | .shiftr r1 r2 => Sys2Proof.Machine.execShiftr r1 r2 s
  | .rmo r1 r2 => Sys2Proof.Machine.execRmo r1 r2 s
  | .svc r1 r2 => Sys2Proof.Machine.execSvc r1 r2 s
  | .clear r1 r2 => Sys2Proof.Machine.execClear r1 r2 s
  | .tixr r1 r2 => Sys2Proof.Machine.execTixr r1 r2 s
  | .float => Sys2Proof.Machine.execFloat s
  | .fix => Sys2Proof.Machine.execFix s
  | .norm => Sys2Proof.Machine.execNorm s
  | .lps o => Sys2Proof.Machine.execLps o s
  | .sti o => Sys2Proof.Machine.execSti o s
  | .rd o => Sys2Proof.Machine.execRd o s
  | .wd o => Sys2Proof.Machine.execWd o s
  | .td o => Sys2Proof.Machine.execTd o s
  | .stsw o => Sys2Proof.Machine.execStsw o s
  | .ssk o => Sys2Proof.Machine.execSsk o s
  | .sio => Sys2Proof.Machine.execSio s
  | .hio => Sys2Proof.Machine.execHio s
  | .tio => Sys2Proof.Machine.execTio s

end Sys2Proof.Machine
end

