-- ==== Sys2Proof/Machine/Cycle.lean ====
section
/-! DEFINITION. One step of the ControlUnit: state check, fetch, decode, dispatch (R120, R139). -/

namespace Sys2Proof.Machine

/-- The bytes that can be read from `a` on, in ascending order, at most `n` of them: the list ends before
the first address that is out of bounds (R62, R88). -/
def Memory.readFrom (m : Memory) (a : Nat) : Nat → List Byte
  | 0 => []
  | n + 1 =>
    match m.readByte a with
    | .ok b => b :: m.readFrom (a + 1) n
    | .error _ => []

/-- The bytes a fetch can see at the PC: no instruction is longer than 4 (R80).  Addresses are plain
integers and do not wrap (R88); reading has no side effect (R67).  DEDUCED (log 11, safe): bytes past the
instruction's end are looked at and do not matter. -/
def fetchWindow (s : State) : List Byte := s.mem.readFrom (s.reg .pc).toNat 4

/-- The failure of a fetch that ran out of bytes: the first address out of bounds (R88, R305). -/
def fetchFailure (s : State) : Failure :=
  .addressError (.memory ((s.reg .pc).toNat + (fetchWindow s).length))

/-- A step in state Running (R121 to R126): what the fetch decodes to is executed; an encoding with no
row fails at dispatch (R109); a fetch out of bounds changes nothing but the fault record (R122). -/
def runningStep (s : State) : Result :=
  match decode (fetchWindow s) with
  | .instr i => exec i s
  | .unregistered op o => unsupportedOperand op o s
  | .truncated => .next (s.raise (fetchFailure s) (s.reg .pc))

/-- One step (R120): Faulted repeats its failure and changes nothing (R306), Halted is a no-op (R127). -/
def cycle (s : State) : Result :=
  if s.fault.isSome then .next s
  else if s.halted then .next s
  else runningStep s

/-- The bytes written from `a` on, as far as memory reaches; used to place an instruction for a fetch. -/
def Memory.placeBytes (m : Memory) (a : Nat) : List Byte → Memory
  | [] => m
  | b :: rest =>
    match m.writeByte a b with
    | .ok m' => m'.placeBytes (a + 1) rest
    | .error _ => m

/-- The state in which the next step fetches an opcode-table word: its bytes at the PC, in state Running. -/
def placeTableWord (s : State) (nbits w : Nat) : State :=
  { s with mem := s.mem.placeBytes (s.reg .pc).toNat (tableBytes nbits w), halted := false, fault := none }

end Sys2Proof.Machine
end

