-- ==== Sys2Proof/Machine/Step.lean ====
section
/-! DEFINITION. The step, and the host's way to place an instruction where the step fetches. -/

namespace Sys2Proof.Machine

/-- `step()`: one instruction, or the repeat of a failure, or a no-op (R42, R120). -/
def step (s : State) : Host.Outcome State Fault Refusal := cycle s

/-- The state with an opcode-table word stored where the step fetches, in state Running (log 4). -/
def State.withFetchWord (s : State) (nbits w : Nat) : State := placeTableWord s nbits w

end Sys2Proof.Machine
end

