-- ==== Sys2Proof/Machine/Interface.lean ====
section
/-! DEFINITION. The block's interface to its host and loader (spec/10_state.md section 7, R24, R25, R336, R337). -/

namespace Sys2Proof.Machine

/-! ### The register file's methods -/

/-- `set(name, raw)`: `raw` masked to the register's width and stored; never an error (R24). -/
def Regs.setRaw (g : Regs) (r : RegName) (raw : Int) : Regs :=
  match narrow r with
  | some q => g.set q (BitVec.ofInt 24 raw)
  | none => { g with f := BitVec.ofInt 48 raw }

/-- `clear(name)`: one register to 0, whatever its width (R25). -/
def Regs.clear (g : Regs) (r : RegName) : Regs :=
  match narrow r with
  | some q => g.set q 0
  | none => { g with f := 0 }

/-- `clear_all()`: all nine registers to 0 (R25). -/
def Regs.clearAll (_ : Regs) : Regs := Regs.zero

/-- The 24-bit accessor: WidthMismatch on F (R23). -/
def Regs.get24 (g : Regs) (r : RegName) : Except Failure Word :=
  match narrow r with
  | some q => .ok (g.get q)
  | none => .error (.widthMismatch r)

/-- The 48-bit accessor: WidthMismatch on every register but F (R23). -/
def Regs.get48 (g : Regs) (r : RegName) : Except Failure FWord :=
  match narrow r with
  | some _ => .error (.widthMismatch r)
  | none => .ok g.f

/-! ### The host's observations (R45); they change nothing -/

/-- A 24-bit register value for display. -/
def hostRead24 (s : State) (r : RegName) : Except Failure Word := s.regs.get24 r

/-- The 48-bit register value for display. -/
def hostRead48 (s : State) (r : RegName) : Except Failure FWord := s.regs.get48 r

/-- A memory byte for display. -/
def hostReadByte (s : State) (a : Nat) : Except Failure Byte := s.mem.readByte a

/-- A memory word for display. -/
def hostReadWord (s : State) (a : Nat) : Except Failure Word := s.mem.readWord a

/-- The ordered history (R45, R324). -/
def executionHistory (s : State) : List TraceEntry := s.history

/-- The ordinal code of a failure kind (R300). -/
def Failure.code : Failure → Nat
  | .addressError _ => 1
  | .alignmentError _ => 2
  | .unsupportedOpcode _ _ => 3
  | .arithmeticError _ => 4
  | .widthMismatch _ => 5
  | .illegalAddressingMode _ => 6

/-! ### Step results (R42) -/

/-- What `step()` returns. -/
inductive StepResult
  | executed (entry : TraceEntry)
  | noOp
  | failed (record : FailureRecord)
  deriving DecidableEq, Repr

/-- The result of a step that went from `s` to `t`: a fault recorded in `t` was raised or repeated by this
step (R306); else a Halted `s` gives NoOp (R127); else the newest entry was appended by this step (R126). -/
def resultOf (s t : State) : Option StepResult :=
  match t.fault with
  | some r => some (.failed r)
  | none => if s.halted then some .noOp else t.lastLog.map .executed

/-- The result `step()` returns at `s`. -/
def stepResult (s : State) : Option StepResult :=
  match step s with
  | .next t => resultOf s t
  | .fault _ => none
  | .refused _ => none

/-! ### The loader (R43, R336) -/

/-- Copy `bytes[0..k-1]` to `start`: each byte through `write_byte`, so an image that does not fit fails
with AddressError at the first address out of bounds.  DESIGN CHOICE (log 15, unsafe): the writes go in
ascending order, which R336 leaves open, and so the address that a failing load names is the lowest. -/
def Memory.loadBytes (m : Memory) (start : Nat) : List Byte → Except Failure Memory
  | [] => .ok m
  | b :: rest =>
    match m.writeByte start b with
    | .error k => .error k
    | .ok m' => m'.loadBytes (start + 1) rest

/-- The loader's writes into the machine's memory.  A failure is reported to the loader and sets no
`fault` (R336, D49).  DESIGN CHOICE (log 10, safe): a failed load answers no state. -/
def loadImage (s : State) (start : Nat) (bytes : List Byte) : Except Failure State :=
  match s.mem.loadBytes start bytes with
  | .error k => .error k
  | .ok m => .ok { s with mem := m }

/-! ### The host's loop (R337) -/

/-- True when a step returned NoOp or Failed, which ends the host's loop. -/
def StepResult.stops : StepResult → Bool
  | .executed _ => false
  | .noOp => true
  | .failed _ => true

/-- `run_until_halted(max_cycles)`: steps until the bound, or the first NoOp or Failed; the state reached
and the last step's result (none when the bound is 0: DESIGN CHOICE, log 12, safe). -/
def runUntilHalted : Nat → State → State × Option StepResult
  | 0, s => (s, none)
  | n + 1, s =>
    match step s with
    | .next t =>
      match resultOf s t with
      | none => (t, none)
      | some r =>
        if r.stops then (t, some r)
        else
          match runUntilHalted n t with
          | (u, none) => (u, some r)
          | (u, some r') => (u, some r')
    | .fault _ => (s, none)
    | .refused _ => (s, none)

end Sys2Proof.Machine
end

