-- ==== Sys2Proof/Safety.lean ====
section
/-! DEFINITION. The terms in which claims speak: the invariant, the conditions under which operands are
readable, the states a completed and a failed step leave, and the shapes of claims that several
instructions share.  Written from the spec's rules, not from the executors. -/

namespace Sys2Proof.Machine

/-! ### Running states and the invariant -/

/-- The ControlUnit is in state Running: neither Faulted nor Halted (R34, R120). -/
abbrev Running (s : State) : Prop := s.fault = none ∧ s.halted = false

/-- An entry has an effective address exactly when its format is 3 or 4 (R35, R105). -/
def TraceEntry.wf (e : TraceEntry) : Bool :=
  match e.format with
  | .f1 | .f2 => e.ea.isNone
  | .f3 | .f4 => e.ea.isSome

/-- What every step keeps: SW is a condition code (R30); memory is canonical and of an allowed size (R7,
R50); `last_log` is the newest history entry (R33, R126); entries have their format's shape (R35); a
machine never holds a fault and the halt flag together (R313). -/
abbrev Inv (s : State) : Prop :=
  s.regs.sw.toNat ≤ 2 ∧ s.mem.wf = true ∧ Config.MemSizeAllowed s.mem.size ∧
  s.lastLog = s.history.getLast? ∧ s.history.all TraceEntry.wf = true ∧
  (s.halted = true → s.fault = none)

/-! ### Values and operands -/

/-- 0 if zero, 1 if negative, 2 if positive (R29, R133). -/
def signCode (v : Int) : Word := if v = 0 then 0 else if v < 0 then 1 else 2

/-- A word access at `a` is aligned (R63). -/
abbrev Aligned (a : Word) : Prop := a.toNat % 3 = 0

/-- An access of `n` bytes at `a` is in bounds (R54). -/
abbrev Fits (m : Memory) (a : Word) (n : Nat) : Prop := a.toNat + n ≤ m.size

/-- OperandWord can be had: the literal, or an aligned word in bounds (R131). -/
abbrev WordReady (o : Operand) (ea : Word) (m : Memory) : Prop :=
  modeOf o = .immediate ∨ (Aligned ea ∧ Fits m ea 3)

/-- OperandWord: the literal, or the word at EA (R131). -/
def wordValue (o : Operand) (ea : Word) (m : Memory) : Word :=
  if modeOf o = .immediate then ea else m.word ea.toNat

/-- OperandByte can be had: the literal's low byte, or a byte in bounds (R131). -/
abbrev ByteReady (o : Operand) (ea : Word) (m : Memory) : Prop := modeOf o = .immediate ∨ Fits m ea 1

/-- OperandByte: the literal's low byte, or the byte at EA (R131). -/
def byteValue (o : Operand) (ea : Word) (m : Memory) : Byte :=
  if modeOf o = .immediate then ea.extractLsb' 0 8 else m.get ea.toNat

/-! ### The states a step leaves -/

/-- The PC after the advance: `mask_24(pc_fetch + size)` (R28, R123). -/
def nextPc (i : Instr) (s : State) : Word := BitVec.ofNat 24 (s.regs.pc.toNat + sizeOfInstr i)

/-- The registers after the PC advance and nothing else. -/
def advanced (i : Instr) (s : State) : Regs := { s.regs with pc := nextPc i s }

/-- The trace entry of an instruction executed at `s` (R35). -/
def entryOf (i : Instr) (ea : Option Word) (s : State) : TraceEntry :=
  { pcFetch := s.regs.pc, opcode := opcodeOf i, format := formatOf i, ea := ea }

/-- The state after a completed step that left registers `g` and memory `m`: one more history entry,
everything else as it was (R126). -/
def completed (i : Instr) (ea : Option Word) (s : State) (g : Regs) (m : Memory) : State :=
  { s with regs := g, mem := m, history := s.history ++ [entryOf i ea s], lastLog := some (entryOf i ea s) }

/-- The state after a failure of phase 1: the fault record and nothing else (R122, R302). -/
def failedInDecode (s : State) (k : Failure) : State :=
  { s with fault := some { kind := k, pcFetch := s.regs.pc } }

/-- The state after a failure of phase 4: the advanced PC, the fault record and nothing else (R125, R303). -/
def failedInExecute (i : Instr) (s : State) (k : Failure) : State :=
  { s with regs := advanced i s, fault := some { kind := k, pcFetch := s.regs.pc } }

/-! ### Shapes of claims -/

/-- A format-3/4 instruction that takes OperandWord and changes registers only: `result g m` from the
advanced registers `g` and the operand `m`; the faults of its operand read; its opcode. -/
def TakesWord (mk : Operand → Instr) (opcode : Byte) (result : Regs → Word → Regs) : Prop :=
  ∀ (o : Operand) (s : State) (ea : Word), effectiveAddress o s = .ok ea →
    opcodeOf (mk o) = opcode ∧
    (WordReady o ea s.mem →
      exec (mk o) s =
        .next (completed (mk o) (some ea) s (result (advanced (mk o) s) (wordValue o ea s.mem)) s.mem)) ∧
    (modeOf o ≠ .immediate → ¬ Aligned ea →
      exec (mk o) s = .next (failedInExecute (mk o) s (.alignmentError ea.toNat))) ∧
    (modeOf o ≠ .immediate → Aligned ea → ¬ Fits s.mem ea 3 →
      exec (mk o) s = .next (failedInExecute (mk o) s (.addressError (.memory ea.toNat))))

/-- A format-3/4 instruction that takes the 48-bit operand into F: `result f m`, its condition code over
48 bits, and its refusals in order (R160, R305). -/
def TakesPair (mk : Operand → Instr) (opcode : Byte) (result : FWord → FWord → FWord) : Prop :=
  ∀ (o : Operand) (s : State) (ea : Word), effectiveAddress o s = .ok ea →
    opcodeOf (mk o) = opcode ∧
    (modeOf o ≠ .immediate → Aligned ea → Fits s.mem ea 6 →
      let v := result s.regs.f (s.mem.word ea.toNat ++ s.mem.word (ea.toNat + 3))
      exec (mk o) s =
        .next (completed (mk o) (some ea) s { advanced (mk o) s with f := v, sw := signCode v.toInt } s.mem)) ∧
    (modeOf o = .immediate →
      exec (mk o) s = .next (failedInExecute (mk o) s (.illegalAddressingMode opcode))) ∧
    (modeOf o ≠ .immediate → ¬ Aligned ea →
      exec (mk o) s = .next (failedInExecute (mk o) s (.alignmentError ea.toNat))) ∧
    (modeOf o ≠ .immediate → Aligned ea → ¬ Fits s.mem ea 6 →
      exec (mk o) s = .next (failedInExecute (mk o) s (.addressError (.memory ea.toNat))))

/-- A format-3/4 instruction that stores the word `source` of the registers at EA: the three bytes, most
significant first, every other byte and every register as before; its refusals in order (R237, R305).
Reading back a byte needs memory in canonical form, which `Inv` keeps. -/
def StoresWord (mk : Operand → Instr) (opcode : Byte) (source : Regs → Word) : Prop :=
  ∀ (o : Operand) (s : State) (ea : Word), effectiveAddress o s = .ok ea →
    opcodeOf (mk o) = opcode ∧
    (s.mem.wf = true → modeOf o ≠ .immediate → Aligned ea → Fits s.mem ea 3 →
      ∃ m, exec (mk o) s = .next (completed (mk o) (some ea) s (advanced (mk o) s) m) ∧
        m.size = s.mem.size ∧
        m.get ea.toNat = (source s.regs).extractLsb' 16 8 ∧
        m.get (ea.toNat + 1) = (source s.regs).extractLsb' 8 8 ∧
        m.get (ea.toNat + 2) = (source s.regs).extractLsb' 0 8 ∧
        (∀ a, a < ea.toNat ∨ ea.toNat + 3 ≤ a → m.get a = s.mem.get a)) ∧
    (modeOf o = .immediate →
      exec (mk o) s = .next (failedInExecute (mk o) s (.illegalAddressingMode opcode))) ∧
    (modeOf o ≠ .immediate → ¬ Aligned ea →
      exec (mk o) s = .next (failedInExecute (mk o) s (.alignmentError ea.toNat))) ∧
    (modeOf o ≠ .immediate → Aligned ea → ¬ Fits s.mem ea 3 →
      exec (mk o) s = .next (failedInExecute (mk o) s (.addressError (.memory ea.toNat))))

/-- A format-3/4 instruction that needs nothing of memory once EA is known: it completes with registers
`result g ea` from the advanced registers `g`, memory untouched. -/
def TakesAddress (mk : Operand → Instr) (opcode : Byte) (result : Regs → Word → Regs) : Prop :=
  ∀ (o : Operand) (s : State) (ea : Word), effectiveAddress o s = .ok ea →
    opcodeOf (mk o) = opcode ∧
    exec (mk o) s = .next (completed (mk o) (some ea) s (result (advanced (mk o) s) ea) s.mem)

/-- A register form `r2 <- result r2 r1` with its condition code: reads see the advanced PC, SW as
destination ends holding the condition code (R154, R180). -/
def CombinesRegs (mk : BitVec 4 → BitVec 4 → Instr) (opcode : Byte) (result : Word → Word → Word) : Prop :=
  ∀ (r1 r2 : BitVec 4) (s : State) (src dst : Reg24), regop24 r1 = .ok src → regop24 r2 = .ok dst →
    let g := advanced (mk r1 r2) s
    let v := result (g.get dst) (g.get src)
    opcodeOf (mk r1 r2) = opcode ∧
    exec (mk r1 r2) s =
      .next (completed (mk r1 r2) none s ((g.set dst v).set .sw (signCode v.toInt)) s.mem)

/-- A shift `r1 <- result r1 (r2 + 1)` with its condition code (R187, R188). -/
def ShiftsReg (mk : BitVec 4 → BitVec 4 → Instr) (opcode : Byte) (result : Word → Nat → Word) : Prop :=
  ∀ (r1 r2 : BitVec 4) (s : State) (d : Reg24), regop24 r1 = .ok d →
    let g := advanced (mk r1 r2) s
    let v := result (g.get d) (r2.toNat + 1)
    opcodeOf (mk r1 r2) = opcode ∧
    exec (mk r1 r2) s = .next (completed (mk r1 r2) none s ((g.set d v).set .sw (signCode v.toInt)) s.mem)

/-- A format-2 instruction that names no register it may use in r1 fails as `regop24` does, and so does
one whose r1 is good and whose r2 is not, when it uses r2 as a register (R180, R305). -/
def RefusesRegs (mk : BitVec 4 → BitVec 4 → Instr) (usesR2 : Bool) : Prop :=
  ∀ (r1 r2 : BitVec 4) (s : State),
    (∀ k, regop24 r1 = .error k → exec (mk r1 r2) s = .next (failedInExecute (mk r1 r2) s k)) ∧
    (∀ q k, usesR2 = true → regop24 r1 = .ok q → regop24 r2 = .error k →
      exec (mk r1 r2) s = .next (failedInExecute (mk r1 r2) s k))

/-! ### Who may change what (R21, R38, R134, R137) -/

/-- The 24-bit registers an instruction may change besides the PC: the "written by" table of R21, SW by
R134.  A register form may change the register r2 names, CLEAR and the shifts the one r1 names. -/
def mayWrite : Instr → Reg24 → Prop
  | .lda _, r | .ldch _, r | .add _, r | .sub _, r | .mul _, r | .div _, r | .and _, r | .or _, r =>
    r = .a ∨ r = .sw
  | .ldx _, r => r = .x ∨ r = .sw
  | .ldl _, r => r = .l ∨ r = .sw
  | .ldb _, r => r = .b ∨ r = .sw
  | .lds _, r => r = .s ∨ r = .sw
  | .ldt _, r => r = .t ∨ r = .sw
  | .rd _, r => r = .a
  | .td _, r | .comp _, r | .compr _ _, r | .addf _, r | .subf _, r => r = .sw
  | .tixr _ _, r => r = .x ∨ r = .sw
  | .jsub _, r => r = .l
  | .addr _ r2, r | .subr _ r2, r | .mulr _ r2, r | .divr _ r2, r => regop24 r2 = .ok r ∨ r = .sw
  | .clear r1 _, r | .shiftl r1 _, r | .shiftr r1 _, r => regop24 r1 = .ok r ∨ r = .sw
  | .sta _, _ | .stb _, _ | .stl _, _ | .sts _, _ | .stt _, _ | .stx _, _ | .stch _, _ => False
  | .j _, _ | .jeq _, _ | .jlt _, _ | .jgt _, _ | .rsub _, _ => False
  | .lps _, _ | .ssk _, _ | .wd _, _ | .sio, _ | .tio, _ | .svc _ _, _ => False
  | .tix _, _ | .mulf _, _ | .divf _, _ | .ldf _, _ | .stf _, _ | .compf _, _ | .rmo _ _, _ => False
  | .float, _ | .fix, _ | .norm, _ | .sti _, _ | .stsw _, _ | .hio, _ => False

/-- The instructions that may change F (R21, R32). -/
def mayWriteF : Instr → Prop
  | .addf _ | .subf _ => True
  | .clear r1 _ => regNumber r1 = some .f
  | _ => False

/-- The store instructions (R38, R66) with the number of bytes each writes. -/
def storeWidth : Instr → Option Nat
  | .sta _ | .stb _ | .stl _ | .sts _ | .stt _ | .stx _ => some 3
  | .stch _ => some 1
  | _ => none

/-- The instructions that take a device draw (R9). -/
def takesDraw : Instr → Bool
  | .rd _ | .td _ => true
  | _ => false

/-- The 13 instructions with no executor (R129). -/
def unregistered : Instr → Bool
  | .tix _ | .mulf _ | .divf _ | .ldf _ | .stf _ | .compf _ | .rmo _ _ => true
  | .float | .fix | .norm | .sti _ | .stsw _ | .hio => true
  | _ => false

end Sys2Proof.Machine
end

