-- ==== Sys2Proof/Certificates/Slice0/Obligations.lean ====
section
/-! DEFINITION. The statements for the provers.  Where a docstring names a decision D<n>, the statement rests on
the spec's own choice in spec/92_eei_decisions.md; where it says "general knowledge", on a value the spec marks
"from general knowledge, not in source"; where it names a log entry, on the model's choice.  All of these
are derived. -/

open Sys2Proof Sys2Proof.Machine

/-! ### Reset and the interface -/

/-- Every piece of state after reset has the value of the table (rule R40; `last_log`, history and fault
by the spec's own decisions D27 and D34). -/
def Obligations.ResetStateIsTheTable : Prop :=
  State.reset.regs = { a := 0, x := 0, l := 0, b := 0, s := 0, t := 0, f := 0, pc := 0, sw := 0 } ∧
  State.reset.halted = false ∧ State.reset.history = [] ∧ State.reset.lastLog = none ∧
  State.reset.fault = none ∧ ∀ a, State.reset.mem.get a = 0

/-- Reset is accepted in every state and sets every field of the table (rule R330; the spec's own decisions
D27, D32 and D34).  That the buffer keeps its size and the draw counter its value is the model's choice
(log entries 1 and 2). -/
def Obligations.ResetOperationFromEveryState : Prop :=
  ∀ s : State,
    (resetMachine s).regs = State.reset.regs ∧ (resetMachine s).halted = false ∧
    (resetMachine s).history = [] ∧ (resetMachine s).lastLog = none ∧ (resetMachine s).fault = none ∧
    (∀ a, (resetMachine s).mem.get a = 0) ∧ (resetMachine s).mem.size = s.mem.size ∧
    (resetMachine s).draws = s.draws

/-- R331: calling reset twice in a row is equivalent to calling it once. -/
def Obligations.ResetIsIdempotent : Prop :=
  ∀ s : State, resetMachine (resetMachine s) = resetMachine s ∧ (resetMachine s).regs.pc = 0 ∧
    (resetMachine s).halted = false ∧ (resetMachine s).history = []

/-- R24: `set(name, raw)` stores `raw` mod 2^width for any integer `raw`, and touches no other register. -/
def Obligations.RegisterWriteMasksToWidth : Prop :=
  ∀ (g : Regs) (r : RegName) (raw : Int),
    (r ≠ .f → ∃ v, (g.setRaw r raw).get24 r = .ok v ∧ (v.toNat : Int) = raw % 16777216) ∧
    (r = .f → ∃ v, (g.setRaw r raw).get48 r = .ok v ∧ (v.toNat : Int) = raw % 281474976710656) ∧
    (∀ q, q ≠ r → (g.setRaw r raw).get24 q = g.get24 q ∧ (g.setRaw r raw).get48 q = g.get48 q)

/-- R23: the 24-bit accessor fails WidthMismatch on F and the 48-bit accessor on every other register; a
format-2 operand uses the 24-bit accessor, so a number that names a register fails WidthMismatch exactly
when that register is F. -/
def Obligations.WrongWidthAccessorFails : Prop :=
  (∀ (g : Regs) (r : RegName),
    (r = .f → g.get24 r = .error (.widthMismatch r) ∧ g.get48 r = .ok g.f ∧ g.f.toNat < 281474976710656) ∧
    (r ≠ .f → g.get48 r = .error (.widthMismatch r) ∧
      ∃ q, narrow r = some q ∧ g.get24 r = .ok (g.get q) ∧ (g.get q).toNat < 16777216)) ∧
  (∀ g : Regs, g.get24 .a = .ok g.a ∧ g.get24 .x = .ok g.x ∧ g.get24 .l = .ok g.l ∧ g.get24 .b = .ok g.b ∧
    g.get24 .s = .ok g.s ∧ g.get24 .t = .ok g.t ∧ g.get24 .pc = .ok g.pc ∧ g.get24 .sw = .ok g.sw) ∧
  (∀ (n : BitVec 4) (r : RegName), regNumber n = some r →
    (regop24 n = .error (.widthMismatch r) ↔ r = .f) ∧ (r ≠ .f → ∃ q, regop24 n = .ok q ∧ narrow r = some q))

/-- R25: `clear` zeroes one register and no other, `clear_all` all nine. -/
def Obligations.ClearZeroesOneRegister : Prop :=
  ∀ (g : Regs) (r : RegName),
    (r ≠ .f → (g.clear r).get24 r = .ok 0) ∧ (r = .f → (g.clear r).get48 r = .ok 0) ∧
    (∀ q, q ≠ r → (g.clear r).get24 q = g.get24 q ∧ (g.clear r).get48 q = g.get48 q) ∧
    g.clearAll = { a := 0, x := 0, l := 0, b := 0, s := 0, t := 0, f := 0, pc := 0, sw := 0 }

/-- The loader copies a whole image or fails at the first address out of bounds; the spec's own decisions
D33 and D49 (rule R336).  Which address a failing load names is the model's choice of an ascending order
(log entry 15). -/
def Obligations.LoaderCopiesTheImage : Prop :=
  ∀ (s : State) (start : Nat) (bytes : List Byte), s.mem.wf = true →
    (start + bytes.length ≤ s.mem.size →
      ∃ m, loadImage s start bytes = .ok { s with mem := m } ∧ m.size = s.mem.size ∧
        (∀ (j : Nat) (h : j < bytes.length), m.get (start + j) = bytes[j]) ∧
        (∀ a, a < start ∨ start + bytes.length ≤ a → m.get a = s.mem.get a)) ∧
    (bytes ≠ [] → s.mem.size < start + bytes.length →
      loadImage s start bytes = .error (.addressError (.memory (max start s.mem.size))))

/-- The host's loop over `step`, for a bound of at least 1: it makes a step and ends with that step's state and
result when the result is NoOp or Failed or the bound is reached, and goes on from there otherwise; so it
ends after `n` executed steps or at the first NoOp or Failed.  The spec's own decision D47 (rule R337). -/
def Obligations.RunUntilHaltedStopsWhereTheSpecSays : Prop :=
  ∀ (n : Nat) (s : State), 0 < n →
    (∃ t r, step s = .next t ∧ stepResult s = some r ∧
      (r = .noOp ∨ (∃ f, r = .failed f) ∨ n = 1 → runUntilHalted n s = (t, some r)) ∧
      (∀ e, r = .executed e → n ≠ 1 → runUntilHalted n s = runUntilHalted (n - 1) t)) ∧
    ∃ t r, runUntilHalted n s = (t, some r) ∧
      (∀ e, r = .executed e →
        t.history.length = s.history.length + n ∧ t.lastLog = some e ∧ t.fault = none) ∧
      (r = .noOp → t.halted = true ∧ t.fault = none) ∧
      (∀ f, r = .failed f → t.fault = some f)

/-! ### Memory -/

/-- R52: a byte access is in bounds or fails AddressError; a written byte is read back and no other
changes. -/
def Obligations.ByteAccessReadsWhatWasWritten : Prop :=
  ∀ (m : Memory) (a : Nat) (v : Byte),
    (a < m.size → m.readByte a = .ok (m.get a)) ∧
    (m.wf = true → a < m.size →
      ∃ m', m.writeByte a v = .ok m' ∧ m'.size = m.size ∧ m'.readByte a = .ok v ∧
        ∀ b, b ≠ a → m'.readByte b = m.readByte b) ∧
    (m.size ≤ a → m.readByte a = .error (.addressError (.memory a)) ∧
      m.writeByte a v = .error (.addressError (.memory a)))

/-- A word is three bytes, most significant first; a written word is read back and no byte outside it
changes (rule R53).  Alignment, checked before bounds, is the spec's own decisions D3 and D4. -/
def Obligations.WordAccessIsBigEndianAlignedAndBounded : Prop :=
  ∀ (m : Memory) (a : Nat) (v : Word),
    (a % 3 = 0 → a + 3 ≤ m.size →
      ∃ w, m.readWord a = .ok w ∧
        w.toNat = (m.get a).toNat * 65536 + (m.get (a + 1)).toNat * 256 + (m.get (a + 2)).toNat) ∧
    (m.wf = true → a % 3 = 0 → a + 3 ≤ m.size →
      ∃ m', m.writeWord a v = .ok m' ∧ m'.size = m.size ∧ m'.readWord a = .ok v ∧
        (m'.get a).toNat = v.toNat / 65536 ∧ (m'.get (a + 1)).toNat = v.toNat / 256 % 256 ∧
        (m'.get (a + 2)).toNat = v.toNat % 256 ∧
        ∀ b, b < a ∨ a + 3 ≤ b → m'.get b = m.get b) ∧
    (¬ a % 3 = 0 → m.readWord a = .error (.alignmentError a) ∧ m.writeWord a v = .error (.alignmentError a)) ∧
    (a % 3 = 0 → m.size < a + 3 → m.readWord a = .error (.addressError (.memory a)) ∧
      m.writeWord a v = .error (.addressError (.memory a)))

/-- The extended read is 4 big-endian bytes with bounds and no alignment requirement (rule R55).  Of the
extended write the spec says only that it exists: that it is the inverse of the read is the model's choice
(log entry 7). -/
def Obligations.ExtendedAccessIsFourBytes : Prop :=
  ∀ (m : Memory) (a : Nat) (v : BitVec 32),
    (a + 4 ≤ m.size →
      ∃ w, m.readExtended a = .ok w ∧
        w.toNat = (m.get a).toNat * 16777216 + (m.get (a + 1)).toNat * 65536 +
          (m.get (a + 2)).toNat * 256 + (m.get (a + 3)).toNat) ∧
    (m.wf = true → a + 4 ≤ m.size → ∃ m', m.writeExtended a v = .ok m' ∧ m'.readExtended a = .ok v) ∧
    (m.size < a + 4 → m.readExtended a = .error (.addressError (.memory a)) ∧
      m.writeExtended a v = .error (.addressError (.memory a)))

/-! ### Encoding -/

/-- The register numbers and the checks of a format-2 operand, number by number; the spec's general knowledge
and its own decisions D5 and D19 (rules R22, R180). -/
def Obligations.RegisterNumbersAsListed : Prop :=
  regop24 0 = .ok .a ∧ regop24 1 = .ok .x ∧ regop24 2 = .ok .l ∧ regop24 3 = .ok .b ∧
  regop24 4 = .ok .s ∧ regop24 5 = .ok .t ∧ regop24 6 = .error (.widthMismatch .f) ∧
  regop24 7 = .error (.addressError (.register 7)) ∧ regop24 8 = .ok .pc ∧ regop24 9 = .ok .sw ∧
  ∀ n : BitVec 4, 10 ≤ n.toNat → regop24 n = .error (.addressError (.register n))

/-- Words of every family, written from the spec's encodings and its vectors; opcodes, register numbers and
bit positions are the spec's general knowledge. -/
def Obligations.KnownWordsDecode : Prop :=
  decode [0x19, 0x00, 0x01] = .instr (.add ⟨false, true, false, false, false, false, 1⟩) ∧
  decode [0x03, 0x2F, 0xFD] = .instr (.lda ⟨true, true, false, false, true, false, 0xFFD⟩) ∧
  decode [0x87, 0x1F, 0xFF, 0xFC] = .instr (.stt ⟨true, true, false, false, false, true, 0xFFFFC⟩) ∧
  decode [0x4B, 0x10, 0x00, 0x10] = .instr (.jsub ⟨true, true, false, false, false, true, 0x10⟩) ∧
  decode [0x57, 0xC0, 0x03] = .instr (.stch ⟨true, true, true, true, false, false, 3⟩) ∧
  decode [0x9C, 0x40] = .instr (.divr 4 0) ∧ decode [0xA4, 0x0F] = .instr (.shiftl 0 15) ∧
  decode [0xB0, 0x00] = .instr (.svc 0 0) ∧ decode [0xF8] = .instr .tio ∧
  decode [0x91, 0x00, 0x00] = .unregistered 0x90 ⟨false, true, false, false, false, false, 0⟩

/-- The format is found from the whole byte b0 and then from b1[4]; the decoded fields are the bits the rules
name (rules R87, R89 to R91).  The sets, bit positions and byte order are the spec's general knowledge and
its own decisions D6, D7 and D9. -/
def Obligations.DecoderReadsEveryField : Prop :=
  ∀ (b0 b1 b2 b3 : Byte) (rest : List Byte),
    let one : List Byte := [0xC0, 0xC4, 0xC8, 0xF0, 0xF4, 0xF8]
    let two : List Byte := [0x90, 0x94, 0x98, 0x9C, 0xA0, 0xA4, 0xA8, 0xAC, 0xB0, 0xB4, 0xB8]
    let flags : Operand → Prop := fun o =>
      o.n = b0.getLsbD 1 ∧ o.i = b0.getLsbD 0 ∧ o.x = b1.getLsbD 7 ∧ o.b = b1.getLsbD 6 ∧
      o.p = b1.getLsbD 5 ∧ o.e = b1.getLsbD 4
    let decodesTo : List Byte → Operand → Prop := fun bytes o =>
      (∃ i, decode bytes = .instr i ∧ i.fields = .operand o ∧ opcodeOf i = b0 &&& 0xFC#8) ∨
      decode bytes = .unregistered (b0 &&& 0xFC#8) o
    (b0 ∈ one → ∃ i, decode (b0 :: rest) = .instr i ∧ opcodeOf i = b0 ∧ i.fields = .none) ∧
    (b0 ∈ two → ∃ i r1 r2, decode (b0 :: b1 :: rest) = .instr i ∧ opcodeOf i = b0 ∧
      i.fields = .regs r1 r2 ∧ r1.toNat = b1.toNat / 16 ∧ r2.toNat = b1.toNat % 16) ∧
    (b0 ∉ one → b0 ∉ two → b1.getLsbD 4 = false →
      ∃ o, flags o ∧ o.field.toNat = b1.toNat % 16 * 256 + b2.toNat ∧ decodesTo (b0 :: b1 :: b2 :: rest) o) ∧
    (b0 ∉ one → b0 ∉ two → b1.getLsbD 4 = true →
      ∃ o, flags o ∧ o.field.toNat = b1.toNat % 16 * 65536 + b2.toNat * 256 + b3.toNat ∧
        decodesTo (b0 :: b1 :: b2 :: b3 :: rest) o)

/-- Four bytes always decode, and the encodings with no row are exactly those of R109 (b) and (c): the five
unassigned opcodes and the format-1/2 values reached as format 3/4; the spec's own decisions D6, D8 and D9. -/
def Obligations.UnassignedOpcodesAreRejectedByName : Prop :=
  ∀ (b0 b1 b2 b3 : Byte) (rest : List Byte),
    decode (b0 :: b1 :: b2 :: b3 :: rest) ≠ .truncated ∧
    ((∃ op o, decode (b0 :: b1 :: b2 :: b3 :: rest) = .unregistered op o) ↔
      (b0 ∈ [0x8C, 0x8D, 0x8E, 0x8F, 0xBC, 0xBD, 0xBE, 0xBF, 0xCC, 0xCD, 0xCE, 0xCF,
             0xE4, 0xE5, 0xE6, 0xE7, 0xFC, 0xFD, 0xFE, (0xFF : Byte)] ∨
       (b0 &&& 0x03#8 ≠ 0 ∧
        b0 &&& 0xFC#8 ∈ [0x90, 0x94, 0x98, 0x9C, 0xA0, 0xA4, 0xA8, 0xAC, 0xB0, 0xB4, 0xB8,
                         0xC0, 0xC4, 0xC8, 0xF0, 0xF4, (0xF8 : Byte)])))

/-- Decoding the encoding of any well-formed instruction gives it back, whatever bytes follow.  The encodings
are the spec's general knowledge and its own decisions D6, D7 and D9 (rules R80 to R91, R108). -/
def Obligations.DecodeOfEncodeIsTheInstruction : Prop :=
  ∀ (i : Instr) (rest : List Byte), i.wellFormed = true → decode (encode i ++ rest) = .instr i

/-- Bytes that decode to an instruction begin with its encoding, and the instruction is well formed: no
bit of an encoding is dropped.  The encodings are the spec's general knowledge and its own decisions D6, D7
and D9 (rules R80 to R91, R108). -/
def Obligations.EncodeOfDecodeIsTheBytes : Prop :=
  ∀ (bytes : List Byte) (i : Instr), decode bytes = .instr i →
    i.wellFormed = true ∧ ∃ rest, bytes = encode i ++ rest

/-! ### Addressing -/

/-- R94, R95, R96: in immediate mode the effective address is the literal: 12 bits sign-extended in
format 3, 20 bits zero-extended in format 4; x, b and p do not matter, no memory is read, and executors
take EA as their operand. -/
def Obligations.ImmediateAddressIsTheLiteral : Prop :=
  ∀ (o : Operand) (s : State), o.n = false → o.i = true →
    ∃ ea : Word, effectiveAddress o s = .ok ea ∧
      (ea.toNat =
        if o.e then o.field.toNat
        else if o.field.toNat % 4096 < 2048 then o.field.toNat % 4096
        else 0xFFF000 + o.field.toNat % 4096) ∧
      (∀ t : State, effectiveAddress o t = .ok ea) ∧
      ∀ m : Memory, operandWord o ea m = .ok ea

/-- The target address of simple mode, as an exact sum mod 2^24: the format-3 displacement is signed only
when p = 1, format 4 never; p wins over b.  The spec's own decisions D10, D11, D38 and D45 (rules R97,
R99 to R103). -/
def Obligations.SimpleAddressIsTheSum : Prop :=
  ∀ (o : Operand) (s : State), o.n = o.i →
    ∃ ea : Word, effectiveAddress o s = .ok ea ∧
      let d : Int := o.field.toNat % 4096
      let base : Int := if o.e then o.field.toNat else if o.p ∧ 2048 ≤ d then d - 4096 else d
      let size : Int := if o.e then 4 else 3
      let rel : Int :=
        if o.p then (s.regs.pc.toNat + size) % 16777216 else if o.b then s.regs.b.toNat else 0
      let idx : Int := if o.x then s.regs.x.toNat else 0
      (ea.toNat : Int) = (base + rel + idx) % 16777216

/-- Indirect mode reads the word at the target address of the same fields in simple mode, once, with its
alignment checked before its bounds; the spec's own decisions D3, D4 and D39 (rule R98). -/
def Obligations.IndirectAddressIsTheWordAtTheTarget : Prop :=
  ∀ (o : Operand) (s : State) (ta : Word), o.n = true → o.i = false →
    effectiveAddress { o with i := true } s = .ok ta →
    (Aligned ta → Fits s.mem ta 3 → effectiveAddress o s = .ok (s.mem.word ta.toNat)) ∧
    (¬ Aligned ta → effectiveAddress o s = .error (.alignmentError ta.toNat)) ∧
    (Aligned ta → ¬ Fits s.mem ta 3 → effectiveAddress o s = .error (.addressError (.memory ta.toNat)))

/-- R100: when p = 1 register B is not added, whatever b is. -/
def Obligations.PcRelativeIgnoresB : Prop :=
  ∀ (o : Operand) (s : State) (v : Word) (b : Bool), o.p = true →
    effectiveAddress { o with b := b } { s with regs := { s.regs with b := v } } = effectiveAddress o s

/-! ### The step -/

/-- A running step executes what its fetch decodes to, and that is well formed (rules R121 to R125; their
summary R139 is the spec's own derivation; the third state Faulted is its own decision D27). -/
def Obligations.StepRunsTheDecodedInstruction : Prop :=
  ∀ (s : State) (i : Instr), Running s → decode (fetchWindow s) = .instr i →
    step s = exec i s ∧ i.wellFormed = true

/-- A running step executes the instruction whose encoding lies at the PC within memory (rules R88, R121);
byte order and fetch without alignment or wrap are the spec's own decisions D7 and D35. -/
def Obligations.StepRunsTheEncodingAtThePc : Prop :=
  ∀ (s : State) (i : Instr), Running s → i.wellFormed = true →
    s.regs.pc.toNat + (encode i).length ≤ s.mem.size →
    (∀ (k : Nat) (h : k < (encode i).length), s.mem.get (s.regs.pc.toNat + k) = (encode i)[k]) →
    step s = exec i s

/-- A fetch that meets the end of memory fails at the first address out of bounds and changes nothing but
the fault record; the spec's own decisions D27 and D35 (rules R87, R88, R122). -/
def Obligations.FetchPastTheEndFails : Prop :=
  ∀ s : State, Running s →
    let pc := s.regs.pc.toNat
    let one : List Byte := [0xC0, 0xC4, 0xC8, 0xF0, 0xF4, 0xF8]
    let two : List Byte := [0x90, 0x94, 0x98, 0x9C, 0xA0, 0xA4, 0xA8, 0xAC, 0xB0, 0xB4, 0xB8]
    let failsAt : Nat → Prop := fun a => step s = .next (failedInDecode s (.addressError (.memory a)))
    (s.mem.size ≤ pc → failsAt pc) ∧
    (pc + 1 = s.mem.size → s.mem.get pc ∉ one → failsAt (pc + 1)) ∧
    (pc + 2 = s.mem.size → s.mem.get pc ∉ one → s.mem.get pc ∉ two → failsAt (pc + 2)) ∧
    (pc + 3 = s.mem.size → s.mem.get pc ∉ one → s.mem.get pc ∉ two →
      (s.mem.get (pc + 1)).getLsbD 4 = true → failsAt (pc + 3))

/-- An encoding with no row fails at dispatch after the PC advance, unless its address fails first; the
spec's own decisions D8, D9, D27 and D28 (rules R109, R129, R305). -/
def Obligations.UnassignedEncodingFailsAtDispatch : Prop :=
  ∀ (s : State) (op : Byte) (o : Operand), Running s → decode (fetchWindow s) = .unregistered op o →
    (∀ ea, effectiveAddress o s = .ok ea →
      step s = .next { s with
        regs := { s.regs with pc := BitVec.ofNat 24 (s.regs.pc.toNat + (if o.e then 4 else 3)) }
        fault := some ⟨.unsupportedOpcode op (if o.e then .f4 else .f3), s.regs.pc⟩ }) ∧
    (∀ k, effectiveAddress o s = .error k → step s = .next (failedInDecode s k))

/-- A Halted step is a no-op, a Faulted step repeats its failure; neither changes the state; the spec's own
decisions D26 and D27 (rules R127, R306). -/
def Obligations.StoppedStepChangesNothing : Prop :=
  ∀ s : State,
    (s.fault = none → s.halted = true → step s = .next s ∧ stepResult s = some .noOp) ∧
    (∀ r, s.fault = some r → step s = .next s ∧ stepResult s = some (.failed r))

/-- Every step returns exactly one result, and the result says what it did: an appended entry, nothing, or
a failure; the spec's own decisions D26 and D27 (rules R42, R126, R301). -/
def Obligations.EveryStepReturnsOneResult : Prop :=
  ∀ s : State,
    ∃ t r, step s = .next t ∧ stepResult s = some r ∧
      (∀ e, r = .executed e → Running s ∧ t.history = s.history ++ [e] ∧ t.lastLog = some e ∧ t.fault = none) ∧
      (r = .noOp → s.halted = true ∧ t = s) ∧
      (∀ f, r = .failed f →
        t.fault = some f ∧ t.history = s.history ∧ t.lastLog = s.lastLog ∧ t.halted = s.halted ∧ t.mem = s.mem)

/-- A failing address computation of any format-3/4 instruction, admitted or not, leaves all but the fault
record; the spec's own decision D27 (rules R106, R122, R302). -/
def Obligations.DecodeFailureChangesOnlyTheFault : Prop :=
  ∀ (i : Instr) (o : Operand) (s : State) (k : Failure),
    i.fields = .operand o → effectiveAddress o s = .error k → exec i s = .next (failedInDecode s k)

/-- Every instruction in every state answers a next state: a decode failure, an execute failure with the
advanced PC and nothing else, or a completion with one more history entry; the spec's own decision D27
(rules R126, R135, R301 to R304). -/
def Obligations.EveryInstructionCompletesOrFailsPrecisely : Prop :=
  ∀ (i : Instr) (s : State),
    ∃ t, exec i s = .next t ∧
      ((∃ k, t = failedInDecode s k) ∨ (∃ k, t = failedInExecute i s k) ∨
       (∃ ea, t.fault = s.fault ∧ t.history = s.history ++ [entryOf i ea s] ∧
          t.lastLog = some (entryOf i ea s)))

/-- Exactly two instructions signal halt, SVC always and RSUB when the L it reads is 0; the halting
instruction's other effects are made (rule R137).  That the PC is then the post-fetch PC or 0 is the spec's
own decisions D24 and D25 (rules R280, R255), that the entry is logged with no text D34 (rule R35). -/
def Obligations.OnlySvcAndRsubHalt : Prop :=
  ∀ (i : Instr) (s t : State), exec i s = .next t → s.halted = false →
    (t.halted = true ↔
      (∃ r1 r2, i = .svc r1 r2) ∨
      (∃ o ea, i = .rsub o ∧ effectiveAddress o s = .ok ea ∧ s.regs.l = 0)) ∧
    (t.halted = true →
      (∃ ea, t.history = s.history ++ [entryOf i ea s] ∧ t.lastLog = some (entryOf i ea s)) ∧
      (∀ r1 r2, i = .svc r1 r2 → t.regs.pc = nextPc i s) ∧ (∀ o, i = .rsub o → t.regs.pc = 0))

/-- An instruction that is no store leaves memory as it was; a store changes no byte outside those at its
effective address; the buffer keeps its size; and so a step changes memory only when it runs a store
(rules R38, R58; which instructions store is the spec's own derivation in R66). -/
def Obligations.OnlyStoresWriteMemory : Prop :=
  (∀ (i : Instr) (s t : State), exec i s = .next t →
    t.mem.size = s.mem.size ∧ (storeWidth i = none → t.mem = s.mem) ∧
    (∀ o ea w, storeWidth i = some w → i.fields = .operand o → effectiveAddress o s = .ok ea →
      ∀ a, a < ea.toNat ∨ ea.toNat + w ≤ a → t.mem.get a = s.mem.get a)) ∧
  (∀ s t : State, step s = .next t → t.mem ≠ s.mem →
    ∃ i w, decode (fetchWindow s) = .instr i ∧ storeWidth i = some w)

/-- The registers an instruction may change besides the PC are those of the "written by" table, SW as the
condition-code table says; the spec's own derivation and decision D13 (rules R21, R134). -/
def Obligations.RegistersChangeOnlyAsListed : Prop :=
  ∀ (i : Instr) (s t : State), exec i s = .next t →
    (∀ r, r ≠ .pc → ¬ mayWrite i r → t.regs.get r = s.regs.get r) ∧
    (¬ mayWriteF i → t.regs.f = s.regs.f)

/-- The invariant holds after reset (rules R30, R33, R35, R40); canonical memory and its size are the model's
choice (log entries 1 and 8). -/
def Obligations.InvariantHoldsAtReset : Prop := Inv State.reset

/-- Every step keeps the invariant: SW stays a condition code, `last_log` is the newest entry, entries have
their format's shape, no machine is faulted and halted together (the spec's own derivations in R30 and
R313, its decisions D27 and D34), and memory stays canonical and of its size (log entries 1 and 8). -/
def Obligations.EveryStepKeepsTheInvariant : Prop :=
  ∀ s t : State, Inv s → step s = .next t → Inv t ∧ t.mem.size = s.mem.size

/-- No instruction can read the history or `last_log`: two runs of a step that differ only there end alike
elsewhere; the spec's own decision D34 (rules R35, R39). -/
def Obligations.HistoryIsNotObservable : Prop :=
  ∀ (s t : State) (h : List TraceEntry) (l : Option TraceEntry), step s = .next t →
    ∃ t', step { s with history := h, lastLog := l } = .next t' ∧
      t'.regs = t.regs ∧ t'.mem = t.mem ∧ t'.halted = t.halted ∧ t'.fault = t.fault ∧ t'.draws = t.draws

/-- Only RD and TD depend on the draws; the spec's own decision D23 (rules R9, R44), the draw counter being
the model's (log entry 2). -/
def Obligations.OnlyRdAndTdTakeDraws : Prop :=
  ∀ (i : Instr) (s t : State) (d : Nat), takesDraw i = false → exec i s = .next t →
    t.draws = s.draws ∧ exec i { s with draws := d } = .next { t with draws := d }

/-! ### Arithmetic -/

/-- ADD, SUB, MUL: A op the operand word, exact and reduced mod 2^24, with its condition code; the operand
read's faults (rules R150 to R152).  Signed reading, condition code, alignment and the order of faults are
the spec's own decisions D3, D4, D12 to D14 and D41, the opcodes its general knowledge. -/
def Obligations.AddSubMulOnA : Prop :=
  TakesWord .add 0x18 (fun g m =>
    let v : Word := BitVec.ofInt 24 (g.a.toInt + m.toInt)
    { g with a := v, sw := signCode v.toInt }) ∧
  TakesWord .sub 0x1C (fun g m =>
    let v : Word := BitVec.ofInt 24 (g.a.toInt - m.toInt)
    { g with a := v, sw := signCode v.toInt }) ∧
  TakesWord .mul 0x20 (fun g m =>
    let v : Word := BitVec.ofInt 24 (g.a.toInt * m.toInt)
    { g with a := v, sw := signCode v.toInt })

/-- DIV: the signed quotient truncated toward zero, the operand read's faults first, then ArithmeticError on
a zero divisor; the spec's own decisions D3, D4, D12 to D14, D16 and D28, the opcode its general knowledge
(rule R153). -/
def Obligations.DivTruncatesTowardZero : Prop :=
  ∀ (o : Operand) (s : State) (ea : Word), effectiveAddress o s = .ok ea →
    let m := wordValue o ea s.mem
    let v : Word := BitVec.ofInt 24 (s.regs.a.toInt.tdiv m.toInt)
    opcodeOf (.div o) = 0x24 ∧
    (WordReady o ea s.mem → m ≠ 0 →
      exec (.div o) s =
        .next (completed (.div o) (some ea) s { advanced (.div o) s with a := v, sw := signCode v.toInt } s.mem)) ∧
    (WordReady o ea s.mem → m = 0 →
      exec (.div o) s = .next (failedInExecute (.div o) s (.arithmeticError .div))) ∧
    (modeOf o ≠ .immediate → ¬ Aligned ea →
      exec (.div o) s = .next (failedInExecute (.div o) s (.alignmentError ea.toNat))) ∧
    (modeOf o ≠ .immediate → Aligned ea → ¬ Fits s.mem ea 3 →
      exec (.div o) s = .next (failedInExecute (.div o) s (.addressError (.memory ea.toNat))))

/-- ADDR, SUBR, MULR: r2 op r1 into r2, reduced mod 2^24, with its condition code; a bad register number or F
fails before anything is written (rules R154 to R156, R180).  The checks and condition code are the spec's
own decisions D5, D12 to D14, D19 and D50; opcodes and operand order its general knowledge. -/
def Obligations.RegisterAddSubMul : Prop :=
  CombinesRegs .addr 0x90 (fun v2 v1 => BitVec.ofInt 24 (v2.toInt + v1.toInt)) ∧ RefusesRegs .addr true ∧
  CombinesRegs .subr 0x94 (fun v2 v1 => BitVec.ofInt 24 (v2.toInt - v1.toInt)) ∧ RefusesRegs .subr true ∧
  CombinesRegs .mulr 0x98 (fun v2 v1 => BitVec.ofInt 24 (v2.toInt * v1.toInt)) ∧ RefusesRegs .mulr true

/-- DIVR: r2 divided by r1, truncated toward zero, register checks first, ArithmeticError on a zero divisor;
the spec's own decisions D12 to D14, D16, D19 and D28, opcode and operand order its general knowledge
(rule R157). -/
def Obligations.DivrTruncatesTowardZero : Prop :=
  RefusesRegs .divr true ∧
  ∀ (r1 r2 : BitVec 4) (s : State) (src dst : Reg24), regop24 r1 = .ok src → regop24 r2 = .ok dst →
    let g := advanced (.divr r1 r2) s
    let v : Word := BitVec.ofInt 24 ((g.get dst).toInt.tdiv (g.get src).toInt)
    opcodeOf (.divr r1 r2) = 0x9C ∧
    (g.get src ≠ 0 →
      exec (.divr r1 r2) s =
        .next (completed (.divr r1 r2) none s ((g.set dst v).set .sw (signCode v.toInt)) s.mem)) ∧
    (g.get src = 0 →
      exec (.divr r1 r2) s = .next (failedInExecute (.divr r1 r2) s (.arithmeticError .divr)))

/-- ADDF and SUBF: 48-bit integer sum and difference with the six bytes at EA, condition code over 48 bits;
immediate mode refused, then alignment, then bounds; the spec's own decisions D3, D4, D13, D14, D20 and D22,
the opcodes its general knowledge (rules R160, R161, R132). -/
def Obligations.AddfSubfOnF : Prop :=
  TakesPair .addf 0x58 (fun f m => BitVec.ofInt 48 (f.toInt + m.toInt)) ∧
  TakesPair .subf 0x5C (fun f m => BitVec.ofInt 48 (f.toInt - m.toInt))

/-! ### Logic, compare, shift, clear -/

/-- AND, OR: A combined bitwise with the operand word, with its condition code; the operand read's faults
(rules R181, R182).  Condition code and faults are the spec's own decisions D3, D4, D13 and D14, the opcodes
its general knowledge. -/
def Obligations.AndOrOnA : Prop :=
  TakesWord .and 0x40 (fun g m => { g with a := g.a &&& m, sw := signCode (g.a &&& m).toInt }) ∧
  TakesWord .or 0x44 (fun g m => { g with a := g.a ||| m, sw := signCode (g.a ||| m).toInt })

/-- COMP writes the exact signed comparison of A with the operand word to SW and nothing else; the spec's own
decisions D3, D4 and D15, the opcode its general knowledge (rules R183, R189). -/
def Obligations.CompComparesSigned : Prop :=
  TakesWord .comp 0x28 (fun g m => { g with sw := signCode (g.a.toInt - m.toInt) })

/-- COMPR writes the exact signed comparison of r1 with r2 to SW and nothing else; the spec's own decisions
D15 and D19, opcode and operand order its general knowledge (rules R184, R189, R180). -/
def Obligations.ComprComparesSigned : Prop :=
  RefusesRegs .compr true ∧
  ∀ (r1 r2 : BitVec 4) (s : State) (p q : Reg24), regop24 r1 = .ok p → regop24 r2 = .ok q →
    let g := advanced (.compr r1 r2) s
    opcodeOf (.compr r1 r2) = 0xA0 ∧
    exec (.compr r1 r2) s =
      .next (completed (.compr r1 r2) none s
        { g with sw := signCode ((g.get p).toInt - (g.get q).toInt) } s.mem)

/-- TIXR increments X, then compares the new X with r1 read after the increment; r2 is ignored; the spec's
own decisions D15, D19 and D48, opcode and semantics its general knowledge (rule R185). -/
def Obligations.TixrIncrementsThenCompares : Prop :=
  RefusesRegs .tixr false ∧
  ∀ (r1 r2 : BitVec 4) (s : State) (q : Reg24), regop24 r1 = .ok q →
    let g := { advanced (.tixr r1 r2) s with x := BitVec.ofNat 24 (s.regs.x.toNat + 1) }
    opcodeOf (.tixr r1 r2) = 0xB8 ∧
    exec (.tixr r1 r2) s =
      .next (completed (.tixr r1 r2) none s { g with sw := signCode (g.x.toInt - (g.get q).toInt) } s.mem)

/-- CLEAR zeroes the register r1 names, F included, and SW; a number that names none fails; the spec's own
decision D18, the opcode and numbers its general knowledge (rule R186). -/
def Obligations.ClearZeroesAnyRegister : Prop :=
  ∀ (r1 r2 : BitVec 4) (s : State),
    let g := advanced (.clear r1 r2) s
    opcodeOf (.clear r1 r2) = 0xB4 ∧
    (∀ d, regop24 r1 = .ok d →
      exec (.clear r1 r2) s =
        .next (completed (.clear r1 r2) none s ((g.set d 0).set .sw 0) s.mem)) ∧
    (r1 = 6 →
      exec (.clear r1 r2) s = .next (completed (.clear r1 r2) none s { g with f := 0, sw := 0 } s.mem)) ∧
    (r1 = 7 ∨ 10 ≤ r1.toNat →
      exec (.clear r1 r2) s = .next (failedInExecute (.clear r1 r2) s (.addressError (.register r1))))

/-- SHIFTL rotates r1 left by r2 + 1 bits, SHIFTR shifts it right arithmetically by as many, each with its
condition code; the spec's own decisions D17 and D19, opcodes, rotation, fill and count its general knowledge
(rules R187, R188). -/
def Obligations.ShiftsRotateLeftAndFillRight : Prop :=
  ShiftsReg .shiftl 0xA4 (fun v n => v.rotateLeft n) ∧ RefusesRegs .shiftl false ∧
  ShiftsReg .shiftr 0xA8 (fun v n => v.sshiftRight n) ∧ RefusesRegs .shiftr false

/-! ### Loads and stores -/

/-- LDA, LDX, LDL, LDB, LDS, LDT: the destination takes the operand word, SW its condition code; the operand
read's faults (rules R210, R211, R213 to R217).  Alignment and condition code are the spec's own decisions
D3, D4, D13 and D14, the opcodes its general knowledge. -/
def Obligations.WordLoadsSetTheirRegister : Prop :=
  TakesWord .lda 0x00 (fun g m => { g with a := m, sw := signCode m.toInt }) ∧
  TakesWord .ldx 0x04 (fun g m => { g with x := m, sw := signCode m.toInt }) ∧
  TakesWord .ldl 0x08 (fun g m => { g with l := m, sw := signCode m.toInt }) ∧
  TakesWord .ldb 0x68 (fun g m => { g with b := m, sw := signCode m.toInt }) ∧
  TakesWord .lds 0x6C (fun g m => { g with s := m, sw := signCode m.toInt }) ∧
  TakesWord .ldt 0x74 (fun g m => { g with t := m, sw := signCode m.toInt })

/-- LDCH replaces the low byte of A, keeps the rest, and sets SW from the whole of A; a byte needs bounds and
no alignment; the spec's own decisions D13, D14, D21 and D44, opcode and placement its general knowledge
(rule R212). -/
def Obligations.LdchReplacesTheLowByte : Prop :=
  ∀ (o : Operand) (s : State) (ea : Word), effectiveAddress o s = .ok ea →
    let v : Word := BitVec.ofNat 24 (s.regs.a.toNat / 256 * 256 + (byteValue o ea s.mem).toNat)
    opcodeOf (.ldch o) = 0x50 ∧
    (ByteReady o ea s.mem →
      exec (.ldch o) s =
        .next (completed (.ldch o) (some ea) s
          { advanced (.ldch o) s with a := v, sw := signCode v.toInt } s.mem)) ∧
    (modeOf o ≠ .immediate → ¬ Fits s.mem ea 1 →
      exec (.ldch o) s = .next (failedInExecute (.ldch o) s (.addressError (.memory ea.toNat))))

/-- STA, STB, STL, STS, STT, STX: the word of the register at EA, big-endian; every other byte, every register
but the PC, and SW as before; immediate mode, misalignment and bounds refused with nothing written (rules
R230, R231, R233 to R237).  The refusals are the spec's own decisions D3, D4, D13 and D20, the opcodes its
general knowledge; canonical memory is the model's (log entry 8). -/
def Obligations.WordStoresWriteThreeBytes : Prop :=
  StoresWord .sta 0x0C (fun g => g.a) ∧ StoresWord .stb 0x78 (fun g => g.b) ∧
  StoresWord .stl 0x14 (fun g => g.l) ∧ StoresWord .sts 0x7C (fun g => g.s) ∧
  StoresWord .stt 0x84 (fun g => g.t) ∧ StoresWord .stx 0x10 (fun g => g.x)

/-- STCH writes the low byte of A at EA and no other byte; no alignment requirement; the spec's own
decisions D13, D20 and D21, opcode and placement its general knowledge; canonical memory is the model's (log
entry 8) (rule R232). -/
def Obligations.StchWritesOneByte : Prop :=
  ∀ (o : Operand) (s : State) (ea : Word), effectiveAddress o s = .ok ea →
    opcodeOf (.stch o) = 0x54 ∧
    (s.mem.wf = true → modeOf o ≠ .immediate → Fits s.mem ea 1 →
      ∃ m, exec (.stch o) s = .next (completed (.stch o) (some ea) s (advanced (.stch o) s) m) ∧
        m.size = s.mem.size ∧ (m.get ea.toNat).toNat = s.regs.a.toNat % 256 ∧
        ∀ a, a ≠ ea.toNat → m.get a = s.mem.get a) ∧
    (modeOf o = .immediate →
      exec (.stch o) s = .next (failedInExecute (.stch o) s (.illegalAddressingMode 0x54))) ∧
    (modeOf o ≠ .immediate → ¬ Fits s.mem ea 1 →
      exec (.stch o) s = .next (failedInExecute (.stch o) s (.addressError (.memory ea.toNat))))

/-! ### Control transfer -/

/-- J always, JEQ, JLT and JGT when the condition code is 0, 1 or 2, take the PC to EA in every addressing
mode; not taken, the PC is the post-fetch PC; nothing else changes (rules R250 to R253, R256).  The target
is the spec's own decision D43, the codes D14, the opcodes its general knowledge. -/
def Obligations.JumpsTakeTheEffectiveAddress : Prop :=
  TakesAddress .j 0x3C (fun g ea => { g with pc := ea }) ∧
  TakesAddress .jeq 0x30 (fun g ea => if g.sw = 0 then { g with pc := ea } else g) ∧
  TakesAddress .jlt 0x38 (fun g ea => if g.sw = 1 then { g with pc := ea } else g) ∧
  TakesAddress .jgt 0x34 (fun g ea => if g.sw = 2 then { g with pc := ea } else g)

/-- JSUB saves the post-fetch PC in L and jumps to EA (rule R254); the target is the spec's own decision D43,
the opcode its general knowledge. -/
def Obligations.JsubSavesThePostFetchPc : Prop :=
  TakesAddress .jsub 0x48 (fun g ea => { g with l := g.pc, pc := ea })

/-- RSUB sets the PC to L and halts exactly when L is 0; the spec's own decision D25, the opcode its general
knowledge (rule R255). -/
def Obligations.RsubReturnsOrHalts : Prop :=
  ∀ (o : Operand) (s : State) (ea : Word), effectiveAddress o s = .ok ea →
    opcodeOf (.rsub o) = 0x4C ∧
    exec (.rsub o) s =
      .next { completed (.rsub o) (some ea) s { s.regs with pc := s.regs.l } s.mem with
        halted := s.halted || decide (s.regs.l = 0) }

/-! ### System pseudo-ops and what has no executor -/

/-- LPS, SSK, WD, SIO and TIO change nothing but the PC and the history; the spec's own decision D23, the
opcodes its general knowledge (rules R270 to R273, R275). -/
def Obligations.PseudoOpsOnlyAdvance : Prop :=
  TakesAddress .lps 0xD0 (fun g _ => g) ∧ TakesAddress .ssk 0xEC (fun g _ => g) ∧
  TakesAddress .wd 0xDC (fun g _ => g) ∧
  ∀ s : State,
    opcodeOf .sio = 0xF0 ∧ exec .sio s = .next (completed .sio none s (advanced .sio s) s.mem) ∧
    opcodeOf .tio = 0xF8 ∧ exec .tio s = .next (completed .tio none s (advanced .tio s) s.mem)

/-- RD gives A a draw and leaves SW; TD gives SW a draw that is 0, 1 or 2 and leaves A; each takes one draw of
the model's counter (log entry 2); the spec's own decision D23, the opcodes its general knowledge (rules R276,
R277). -/
def Obligations.RdAndTdTakeOneDraw : Prop :=
  ∀ (o : Operand) (s : State) (ea : Word), effectiveAddress o s = .ok ea →
    opcodeOf (.rd o) = 0xD8 ∧ opcodeOf (.td o) = 0xE0 ∧
    (∃ v : Word, exec (.rd o) s =
      .next { completed (.rd o) (some ea) s { advanced (.rd o) s with a := v } s.mem with
        draws := s.draws + 1 }) ∧
    (∃ c : Word, c.toNat ≤ 2 ∧ exec (.td o) s =
      .next { completed (.td o) (some ea) s { advanced (.td o) s with sw := c } s.mem with
        draws := s.draws + 1 })

/-- SVC completes and halts, its fields unread; the spec's own decision D24, the opcode its general knowledge
(rule R280). -/
def Obligations.SvcHalts : Prop :=
  ∀ (r1 r2 : BitVec 4) (s : State),
    opcodeOf (.svc r1 r2) = 0xB0 ∧
    exec (.svc r1 r2) s =
      .next { completed (.svc r1 r2) none s (advanced (.svc r1 r2) s) s.mem with halted := true }

/-- The 13 instructions with no executor fail UnsupportedOpcode with their opcode and format after the PC
advance, unless their address fails first; the spec's own decisions D8, D27 and D28, the opcodes its general
knowledge (rule R129). -/
def Obligations.InstructionsWithoutExecutorFail : Prop :=
  ∀ (i : Instr) (s : State), unregistered i = true →
    (∀ o, i.fields = .operand o → ∃ ea, effectiveAddress o s = .ok ea) →
    exec i s = .next (failedInExecute i s (.unsupportedOpcode (opcodeOf i) (formatOf i)))
end

