-- ==== Sys2Proof/Laws/State.lean ====
section
/-! SUPPORT. The fields of a state after each update, by rfl, so that no proof unfolds a record update. -/

namespace Sys2Proof.Machine

@[simp] theorem State.setReg_regs (s : State) (r : Reg24) (v : Word) : (s.setReg r v).regs = s.regs.set r v := rfl
@[simp] theorem State.setReg_mem (s : State) (r : Reg24) (v : Word) : (s.setReg r v).mem = s.mem := rfl
@[simp] theorem State.setReg_halted (s : State) (r : Reg24) (v : Word) : (s.setReg r v).halted = s.halted := rfl
@[simp] theorem State.setReg_fault (s : State) (r : Reg24) (v : Word) : (s.setReg r v).fault = s.fault := rfl
@[simp] theorem State.setReg_history (s : State) (r : Reg24) (v : Word) : (s.setReg r v).history = s.history := rfl
@[simp] theorem State.setReg_lastLog (s : State) (r : Reg24) (v : Word) : (s.setReg r v).lastLog = s.lastLog := rfl
@[simp] theorem State.setReg_draws (s : State) (r : Reg24) (v : Word) : (s.setReg r v).draws = s.draws := rfl

@[simp] theorem State.setF_regs (s : State) (v : FWord) : (s.setF v).regs = { s.regs with f := v } := rfl
@[simp] theorem State.setF_mem (s : State) (v : FWord) : (s.setF v).mem = s.mem := rfl
@[simp] theorem State.setF_halted (s : State) (v : FWord) : (s.setF v).halted = s.halted := rfl
@[simp] theorem State.setF_fault (s : State) (v : FWord) : (s.setF v).fault = s.fault := rfl
@[simp] theorem State.setF_history (s : State) (v : FWord) : (s.setF v).history = s.history := rfl
@[simp] theorem State.setF_lastLog (s : State) (v : FWord) : (s.setF v).lastLog = s.lastLog := rfl
@[simp] theorem State.setF_draws (s : State) (v : FWord) : (s.setF v).draws = s.draws := rfl

@[simp] theorem State.setCode_regs (s : State) (c : Word) : (s.setCode c).regs = s.regs.set .sw c := rfl
@[simp] theorem State.setCode_mem (s : State) (c : Word) : (s.setCode c).mem = s.mem := rfl
@[simp] theorem State.setCode_halted (s : State) (c : Word) : (s.setCode c).halted = s.halted := rfl
@[simp] theorem State.setCode_fault (s : State) (c : Word) : (s.setCode c).fault = s.fault := rfl
@[simp] theorem State.setCode_history (s : State) (c : Word) : (s.setCode c).history = s.history := rfl
@[simp] theorem State.setCode_lastLog (s : State) (c : Word) : (s.setCode c).lastLog = s.lastLog := rfl
@[simp] theorem State.setCode_draws (s : State) (c : Word) : (s.setCode c).draws = s.draws := rfl

@[simp] theorem State.writeResult_regs (s : State) (r : Reg24) (v : Word) : (s.writeResult r v).regs = (s.regs.set r v).set .sw (code24 v) := rfl
@[simp] theorem State.writeResult_mem (s : State) (r : Reg24) (v : Word) : (s.writeResult r v).mem = s.mem := rfl
@[simp] theorem State.writeResult_halted (s : State) (r : Reg24) (v : Word) : (s.writeResult r v).halted = s.halted := rfl
@[simp] theorem State.writeResult_fault (s : State) (r : Reg24) (v : Word) : (s.writeResult r v).fault = s.fault := rfl
@[simp] theorem State.writeResult_history (s : State) (r : Reg24) (v : Word) : (s.writeResult r v).history = s.history := rfl
@[simp] theorem State.writeResult_lastLog (s : State) (r : Reg24) (v : Word) : (s.writeResult r v).lastLog = s.lastLog := rfl
@[simp] theorem State.writeResult_draws (s : State) (r : Reg24) (v : Word) : (s.writeResult r v).draws = s.draws := rfl

@[simp] theorem State.writeResultF_regs (s : State) (v : FWord) : (s.writeResultF v).regs = ({ s.regs with f := v } : Regs).set .sw (code48 v) := rfl
@[simp] theorem State.writeResultF_mem (s : State) (v : FWord) : (s.writeResultF v).mem = s.mem := rfl
@[simp] theorem State.writeResultF_halted (s : State) (v : FWord) : (s.writeResultF v).halted = s.halted := rfl
@[simp] theorem State.writeResultF_fault (s : State) (v : FWord) : (s.writeResultF v).fault = s.fault := rfl
@[simp] theorem State.writeResultF_history (s : State) (v : FWord) : (s.writeResultF v).history = s.history := rfl
@[simp] theorem State.writeResultF_lastLog (s : State) (v : FWord) : (s.writeResultF v).lastLog = s.lastLog := rfl
@[simp] theorem State.writeResultF_draws (s : State) (v : FWord) : (s.writeResultF v).draws = s.draws := rfl

@[simp] theorem State.advance_regs (s : State) (n : Nat) : (s.advance n).regs = s.regs.set .pc (s.regs.pc + BitVec.ofNat 24 n) := rfl
@[simp] theorem State.advance_mem (s : State) (n : Nat) : (s.advance n).mem = s.mem := rfl
@[simp] theorem State.advance_halted (s : State) (n : Nat) : (s.advance n).halted = s.halted := rfl
@[simp] theorem State.advance_fault (s : State) (n : Nat) : (s.advance n).fault = s.fault := rfl
@[simp] theorem State.advance_history (s : State) (n : Nat) : (s.advance n).history = s.history := rfl
@[simp] theorem State.advance_lastLog (s : State) (n : Nat) : (s.advance n).lastLog = s.lastLog := rfl
@[simp] theorem State.advance_draws (s : State) (n : Nat) : (s.advance n).draws = s.draws := rfl

@[simp] theorem State.raise_regs (s : State) (k : Failure) (p : Word) : (s.raise k p).regs = s.regs := rfl
@[simp] theorem State.raise_mem (s : State) (k : Failure) (p : Word) : (s.raise k p).mem = s.mem := rfl
@[simp] theorem State.raise_halted (s : State) (k : Failure) (p : Word) : (s.raise k p).halted = s.halted := rfl
@[simp] theorem State.raise_fault (s : State) (k : Failure) (p : Word) : (s.raise k p).fault = some ⟨k, p⟩ := rfl
@[simp] theorem State.raise_history (s : State) (k : Failure) (p : Word) : (s.raise k p).history = s.history := rfl
@[simp] theorem State.raise_lastLog (s : State) (k : Failure) (p : Word) : (s.raise k p).lastLog = s.lastLog := rfl
@[simp] theorem State.raise_draws (s : State) (k : Failure) (p : Word) : (s.raise k p).draws = s.draws := rfl

@[simp] theorem State.signalHalt_regs (s : State) : (s.signalHalt).regs = s.regs := rfl
@[simp] theorem State.signalHalt_mem (s : State) : (s.signalHalt).mem = s.mem := rfl
@[simp] theorem State.signalHalt_halted (s : State) : (s.signalHalt).halted = true := rfl
@[simp] theorem State.signalHalt_fault (s : State) : (s.signalHalt).fault = s.fault := rfl
@[simp] theorem State.signalHalt_history (s : State) : (s.signalHalt).history = s.history := rfl
@[simp] theorem State.signalHalt_lastLog (s : State) : (s.signalHalt).lastLog = s.lastLog := rfl
@[simp] theorem State.signalHalt_draws (s : State) : (s.signalHalt).draws = s.draws := rfl

@[simp] theorem State.log_regs (s : State) (e : TraceEntry) : (s.log e).regs = s.regs := rfl
@[simp] theorem State.log_mem (s : State) (e : TraceEntry) : (s.log e).mem = s.mem := rfl
@[simp] theorem State.log_halted (s : State) (e : TraceEntry) : (s.log e).halted = s.halted := rfl
@[simp] theorem State.log_fault (s : State) (e : TraceEntry) : (s.log e).fault = s.fault := rfl
@[simp] theorem State.log_history (s : State) (e : TraceEntry) : (s.log e).history = s.history ++ [e] := rfl
@[simp] theorem State.log_lastLog (s : State) (e : TraceEntry) : (s.log e).lastLog = some e := rfl
@[simp] theorem State.log_draws (s : State) (e : TraceEntry) : (s.log e).draws = s.draws := rfl

@[simp] theorem State.reg_eq (s : State) (r : Reg24) : s.reg r = s.regs.get r := rfl
@[simp] theorem State.regF_eq (s : State) : s.regF = s.regs.f := rfl

/-! ### Registers -/

@[simp] theorem Regs.get_set_same (g : Regs) (r : Reg24) (v : Word) : (g.set r v).get r = v := by
  cases r <;> rfl

theorem Regs.get_set_ne (g : Regs) {r q : Reg24} (v : Word) (h : q ≠ r) : (g.set r v).get q = g.get q := by
  cases r <;> cases q <;> first | rfl | exact absurd rfl h

@[simp] theorem Regs.set_f (g : Regs) (r : Reg24) (v : Word) : (g.set r v).f = g.f := by
  cases r <;> rfl

theorem Regs.set_sw_sw (g : Regs) (c : Word) : (g.set .sw c).sw = c := rfl

theorem Regs.set_set_same (g : Regs) (r : Reg24) (v w : Word) : (g.set r v).set r w = g.set r w := by
  cases r <;> rfl

@[simp] theorem State.clearReg_mem (s : State) (r : RegName) : (s.clearReg r).mem = s.mem := by
  cases r <;> rfl
@[simp] theorem State.clearReg_halted (s : State) (r : RegName) : (s.clearReg r).halted = s.halted := by
  cases r <;> rfl
@[simp] theorem State.clearReg_fault (s : State) (r : RegName) : (s.clearReg r).fault = s.fault := by
  cases r <;> rfl
@[simp] theorem State.clearReg_history (s : State) (r : RegName) : (s.clearReg r).history = s.history := by
  cases r <;> rfl
@[simp] theorem State.clearReg_lastLog (s : State) (r : RegName) : (s.clearReg r).lastLog = s.lastLog := by
  cases r <;> rfl
@[simp] theorem State.clearReg_draws (s : State) (r : RegName) : (s.clearReg r).draws = s.draws := by
  cases r <;> rfl

/-! ### The end of a step -/

@[simp] theorem finish_error (s : State) (e : TraceEntry) (k : Failure) :
    finish s e (.error k) = s.raise k e.pcFetch := rfl
@[simp] theorem finish_ok (s : State) (e : TraceEntry) (t : State) : finish s e (.ok t) = t.log e := rfl

/-! ### Reset -/

@[simp] theorem resetMachine_draws (s : State) : (resetMachine s).draws = s.draws := rfl
@[simp] theorem resetMachine_size (s : State) : (resetMachine s).mem.size = s.mem.size := rfl
@[simp] theorem resetMachine_cells (s : State) : (resetMachine s).mem.cells = [] := rfl

end Sys2Proof.Machine
end

