-- ==== Sys2Proof/Laws/Memory.lean ====
section
/-! SUPPORT. Memory: read after write, the size, and that every operation keeps the canonical form. -/

namespace Sys2Proof.Machine

/-! ### The cell list -/

theorem cellsGet_below {size lo : Nat} {cs : List Host.Cell} (h : cellsWf size lo cs = true) {a : Nat}
    (ha : a < lo) : cellsGet cs a = Memory.unlisted := by
  induction cs generalizing lo with
  | nil => rfl
  | cons c rest ih =>
    obtain ⟨k, v⟩ := c
    simp only [cellsWf, Bool.and_eq_true, decide_eq_true_eq] at h
    have hk : k ≠ a := by omega
    simp only [cellsGet, hk, if_false]
    exact ih h.2 (by omega)

theorem cellsGet_cellsPut_same {size lo : Nat} {cs : List Host.Cell} (h : cellsWf size lo cs = true)
    (a : Nat) (v : Byte) : cellsGet (cellsPut cs a v) a = v := by
  induction cs generalizing lo with
  | nil => by_cases hv : v = Memory.unlisted <;> simp [cellsPut, cellsGet, hv]
  | cons c rest ih =>
    obtain ⟨k, w⟩ := c
    simp only [cellsWf, Bool.and_eq_true, decide_eq_true_eq] at h
    simp only [cellsPut]
    split
    · rename_i hlt
      have hk : k ≠ a := by omega
      simp only [cellsGet, hk, if_false]
      exact ih h.2
    · split
      · rename_i hkeq
        subst hkeq
        by_cases hv : v = Memory.unlisted
        · simp only [hv, if_true]; exact cellsGet_below h.2 (by omega)
        · simp [cellsGet, hv]
      · rename_i h1 h2
        by_cases hv : v = Memory.unlisted
        · simp only [hv, if_true]
          have hk : k ≠ a := h2
          simp only [cellsGet, hk, if_false]
          exact cellsGet_below h.2 (by omega)
        · simp [cellsGet, hv]

theorem cellsGet_cellsPut_ne (cs : List Host.Cell) {a b : Nat} (v : Byte) (h : b ≠ a) :
    cellsGet (cellsPut cs a v) b = cellsGet cs b := by
  induction cs with
  | nil =>
    by_cases hv : v = Memory.unlisted
    · simp [cellsPut, hv]
    · simp [cellsPut, cellsGet, hv, Ne.symm h]
  | cons c rest ih =>
    obtain ⟨k, w⟩ := c
    simp only [cellsPut]
    split
    · simp only [cellsGet, ih]
    · split
      · rename_i hkeq
        subst hkeq
        by_cases hv : v = Memory.unlisted
        · simp [cellsGet, hv, Ne.symm h]
        · simp [cellsGet, hv, Ne.symm h]
      · by_cases hv : v = Memory.unlisted
        · simp [hv]
        · simp [cellsGet, hv, Ne.symm h]

theorem cellsWf_mono {size lo lo' : Nat} {cs : List Host.Cell} (h : cellsWf size lo cs = true)
    (hle : lo' ≤ lo) : cellsWf size lo' cs = true := by
  cases cs with
  | nil => rfl
  | cons c rest =>
    simp only [cellsWf, Bool.and_eq_true, decide_eq_true_eq] at h ⊢
    exact ⟨⟨⟨by omega, h.1.1.2⟩, h.1.2⟩, h.2⟩

theorem cellsWf_cellsPut {size lo : Nat} {cs : List Host.Cell} (h : cellsWf size lo cs = true) {a : Nat}
    (hlo : lo ≤ a) (ha : a < size) (v : Byte) : cellsWf size lo (cellsPut cs a v) = true := by
  induction cs generalizing lo with
  | nil =>
    by_cases hv : v = Memory.unlisted
    · simp [cellsPut, cellsWf, hv]
    · simp [cellsPut, cellsWf, hv, hlo, ha]
  | cons c rest ih =>
    obtain ⟨k, w⟩ := c
    have h' := h
    simp only [cellsWf, Bool.and_eq_true, decide_eq_true_eq] at h'
    simp only [cellsPut]
    split
    · simp only [cellsWf, Bool.and_eq_true, decide_eq_true_eq]
      exact ⟨h'.1, ih h'.2 (by omega)⟩
    · split
      · rename_i hkeq
        subst hkeq
        by_cases hv : v = Memory.unlisted
        · simp only [hv, if_true]; exact cellsWf_mono h'.2 (by omega)
        · simp only [hv, if_false, cellsWf, Bool.and_eq_true, decide_eq_true_eq]
          exact ⟨⟨⟨hlo, ha⟩, hv⟩, h'.2⟩
      · by_cases hv : v = Memory.unlisted
        · simp only [hv, if_true]; exact h
        · simp only [hv, if_false, cellsWf, Bool.and_eq_true, decide_eq_true_eq]
          exact ⟨⟨⟨hlo, ha⟩, hv⟩, ⟨⟨⟨by omega, h'.1.1.2⟩, h'.1.2⟩, h'.2⟩⟩

/-! ### Bytes -/

@[simp] theorem Memory.put_size (m : Memory) (a : Nat) (v : Byte) : (m.put a v).size = m.size := rfl

theorem Memory.get_put_same {m : Memory} (h : m.wf = true) (a : Nat) (v : Byte) : (m.put a v).get a = v :=
  cellsGet_cellsPut_same h a v

theorem Memory.get_put_ne (m : Memory) {a b : Nat} (v : Byte) (h : b ≠ a) : (m.put a v).get b = m.get b :=
  cellsGet_cellsPut_ne m.cells v h

theorem Memory.put_wf {m : Memory} (h : m.wf = true) {a : Nat} (ha : a < m.size) (v : Byte) :
    (m.put a v).wf = true :=
  cellsWf_cellsPut h (Nat.zero_le _) ha v

/-! ### Words -/

@[simp] theorem Memory.putWord_size (m : Memory) (a : Nat) (v : Word) : (m.putWord a v).size = m.size := rfl

theorem Memory.putWord_wf {m : Memory} (h : m.wf = true) {a : Nat} (ha : a + 3 ≤ m.size) (v : Word) :
    (m.putWord a v).wf = true :=
  Memory.put_wf (Memory.put_wf (Memory.put_wf h (by omega) _) (by simp; omega) _) (by simp; omega) _

theorem Memory.get_putWord_0 {m : Memory} (h : m.wf = true) {a : Nat} (v : Word) :
    (m.putWord a v).get a = v.extractLsb' 16 8 := by
  simp only [Memory.putWord]
  rw [Memory.get_put_ne _ _ (by omega), Memory.get_put_ne _ _ (by omega), Memory.get_put_same h]

theorem Memory.get_putWord_1 {m : Memory} (h : m.wf = true) {a : Nat} (ha : a < m.size) (v : Word) :
    (m.putWord a v).get (a + 1) = v.extractLsb' 8 8 := by
  simp only [Memory.putWord]
  rw [Memory.get_put_ne _ _ (by omega), Memory.get_put_same (Memory.put_wf h ha _)]

theorem Memory.get_putWord_2 {m : Memory} (h : m.wf = true) {a : Nat} (ha : a + 1 < m.size) (v : Word) :
    (m.putWord a v).get (a + 2) = v.extractLsb' 0 8 := by
  simp only [Memory.putWord]
  exact Memory.get_put_same (Memory.put_wf (Memory.put_wf h (by omega) _) (by simpa using ha) _) _ _

theorem Memory.get_putWord_ne (m : Memory) {a b : Nat} (v : Word) (h : b < a ∨ a + 3 ≤ b) :
    (m.putWord a v).get b = m.get b := by
  simp only [Memory.putWord]
  rw [Memory.get_put_ne _ _ (by omega), Memory.get_put_ne _ _ (by omega), Memory.get_put_ne _ _ (by omega)]

/-! ### The checked accesses -/

theorem Memory.readByte_ok {m : Memory} {a : Nat} (h : a < m.size) : m.readByte a = .ok (m.get a) := by
  simp [Memory.readByte, Memory.InBounds, Nat.succ_le_of_lt h]

theorem Memory.readByte_error {m : Memory} {a : Nat} (h : m.size ≤ a) :
    m.readByte a = .error (.addressError (.memory a)) := by
  have : ¬ a + 1 ≤ m.size := by omega
  simp [Memory.readByte, Memory.InBounds, this]

theorem Memory.writeByte_ok {m : Memory} {a : Nat} (v : Byte) (h : a < m.size) :
    m.writeByte a v = .ok (m.put a v) := by
  simp [Memory.writeByte, Memory.InBounds, Nat.succ_le_of_lt h]

theorem Memory.writeByte_error {m : Memory} {a : Nat} (v : Byte) (h : m.size ≤ a) :
    m.writeByte a v = .error (.addressError (.memory a)) := by
  have : ¬ a + 1 ≤ m.size := by omega
  simp [Memory.writeByte, Memory.InBounds, this]

/-- A write that answers left the byte list canonical, the size as it was, and `a` in bounds. -/
theorem Memory.writeByte_inv {m m' : Memory} {a : Nat} {v : Byte} (h : m.writeByte a v = .ok m') :
    a < m.size ∧ m' = m.put a v := by
  by_cases hb : a < m.size
  · rw [Memory.writeByte_ok v hb] at h; exact ⟨hb, (Except.ok.inj h).symm⟩
  · rw [Memory.writeByte_error v (by omega)] at h; cases h

theorem Memory.checkWords_ok {m : Memory} {a n : Nat} (ha : a % 3 = 0) (hb : a + n ≤ m.size) :
    m.checkWords a n = .ok () := by
  simp [Memory.checkWords, ha, Memory.InBounds, hb]

theorem Memory.checkWords_misaligned {m : Memory} {a n : Nat} (ha : ¬ a % 3 = 0) :
    m.checkWords a n = .error (.alignmentError a) := by
  simp [Memory.checkWords, ha]

theorem Memory.checkWords_outside {m : Memory} {a n : Nat} (ha : a % 3 = 0) (hb : ¬ a + n ≤ m.size) :
    m.checkWords a n = .error (.addressError (.memory a)) := by
  simp [Memory.checkWords, ha, Memory.InBounds, hb]

/-- A word write that answers was aligned and in bounds and put the three bytes. -/
theorem Memory.writeWord_inv {m m' : Memory} {a : Nat} {v : Word} (h : m.writeWord a v = .ok m') :
    a % 3 = 0 ∧ a + 3 ≤ m.size ∧ m' = m.putWord a v := by
  unfold Memory.writeWord at h
  by_cases ha : a % 3 = 0
  · by_cases hb : a + 3 ≤ m.size
    · rw [Memory.checkWords_ok ha hb] at h; exact ⟨ha, hb, (Except.ok.inj h).symm⟩
    · rw [Memory.checkWords_outside ha hb] at h; cases h
  · rw [Memory.checkWords_misaligned ha] at h; cases h

/-! ### Every memory operation keeps the canonical form -/

theorem Memory.writeByte_wf {m m' : Memory} {a : Nat} {v : Byte} (hm : m.wf = true)
    (h : m.writeByte a v = .ok m') : m'.wf = true := by
  obtain ⟨hb, rfl⟩ := Memory.writeByte_inv h
  exact Memory.put_wf hm hb v

theorem Memory.writeWord_wf {m m' : Memory} {a : Nat} {v : Word} (hm : m.wf = true)
    (h : m.writeWord a v = .ok m') : m'.wf = true := by
  obtain ⟨-, hb, rfl⟩ := Memory.writeWord_inv h
  exact Memory.putWord_wf hm hb v

theorem Memory.writeExtended_wf {m m' : Memory} {a : Nat} {v : BitVec 32} (hm : m.wf = true)
    (h : m.writeExtended a v = .ok m') : m'.wf = true := by
  unfold Memory.writeExtended at h
  split at h
  · rename_i hb
    have hb' : a + 4 ≤ m.size := hb
    cases h
    exact Memory.put_wf (Memory.putWord_wf hm (by omega) _) (by simp; omega) _
  · cases h

theorem Memory.cleared_wf (m : Memory) : m.cleared.wf = true := rfl

theorem Memory.placeBytes_wf {m : Memory} (hm : m.wf = true) (a : Nat) (bs : List Byte) :
    (m.placeBytes a bs).wf = true := by
  induction bs generalizing m a with
  | nil => exact hm
  | cons b rest ih =>
    simp only [Memory.placeBytes]
    split
    · rename_i m' h; exact ih (Memory.writeByte_wf hm h) _
    · exact hm

theorem Memory.loadBytes_wf {m m' : Memory} (hm : m.wf = true) {a : Nat} {bs : List Byte}
    (h : m.loadBytes a bs = .ok m') : m'.wf = true := by
  induction bs generalizing m a with
  | nil => cases h; exact hm
  | cons b rest ih =>
    simp only [Memory.loadBytes] at h
    split at h
    · cases h
    · rename_i m1 h1; exact ih (Memory.writeByte_wf hm h1) h

theorem reset_mem_wf : State.reset.mem.wf = true := rfl

end Sys2Proof.Machine
end

