-- ==== Sys2Proof/Laws/Operands.lean ====
section
/-! SUPPORT. Operands: what each accessor answers, once; and when a word or byte can be had. -/

namespace Sys2Proof.Machine

/-! ### Modes -/

/-- Everything `operandWord` can answer, by mode. -/
theorem operandWord_immediate {o : Operand} (h : modeOf o = .immediate) (ea : Word) (m : Memory) :
    operandWord o ea m = .ok ea := by
  simp [operandWord, h]

theorem operandWord_memory {o : Operand} (h : modeOf o ≠ .immediate) (ea : Word) (m : Memory) :
    operandWord o ea m = m.readWord ea.toNat := by
  unfold operandWord; split <;> first | rfl | contradiction

theorem operandByte_immediate {o : Operand} (h : modeOf o = .immediate) (ea : Word) (m : Memory) :
    operandByte o ea m = .ok (ea.setWidth 8) := by
  simp [operandByte, h]

theorem operandByte_memory {o : Operand} (h : modeOf o ≠ .immediate) (ea : Word) (m : Memory) :
    operandByte o ea m = m.readByte ea.toNat := by
  unfold operandByte; split <;> first | rfl | contradiction

theorem refuseImmediate_immediate {o : Operand} (h : modeOf o = .immediate) (op : Byte) :
    refuseImmediate op o = .error (.illegalAddressingMode op) := by
  simp [refuseImmediate, h]

theorem refuseImmediate_memory {o : Operand} (h : modeOf o ≠ .immediate) (op : Byte) :
    refuseImmediate op o = .ok () := by
  unfold refuseImmediate; split <;> first | rfl | contradiction

/-! ### Word-level reads -/

theorem Memory.readWord_ok {m : Memory} {a : Nat} (ha : a % 3 = 0) (hb : a + 3 ≤ m.size) :
    m.readWord a = .ok (m.word a) := by
  simp [Memory.readWord, Memory.checkWords_ok ha hb]

theorem Memory.readWord_misaligned {m : Memory} {a : Nat} (ha : ¬ a % 3 = 0) :
    m.readWord a = .error (.alignmentError a) := by
  simp [Memory.readWord, Memory.checkWords_misaligned ha]

theorem Memory.readWord_outside {m : Memory} {a : Nat} (ha : a % 3 = 0) (hb : ¬ a + 3 ≤ m.size) :
    m.readWord a = .error (.addressError (.memory a)) := by
  simp [Memory.readWord, Memory.checkWords_outside ha hb]

theorem Memory.readPair_ok {m : Memory} {a : Nat} (ha : a % 3 = 0) (hb : a + 6 ≤ m.size) :
    m.readPair a = .ok (m.word a ++ m.word (a + 3)) := by
  simp [Memory.readPair, Memory.checkWords_ok ha hb]

theorem Memory.readPair_misaligned {m : Memory} {a : Nat} (ha : ¬ a % 3 = 0) :
    m.readPair a = .error (.alignmentError a) := by
  simp [Memory.readPair, Memory.checkWords_misaligned ha]

theorem Memory.readPair_outside {m : Memory} {a : Nat} (ha : a % 3 = 0) (hb : ¬ a + 6 ≤ m.size) :
    m.readPair a = .error (.addressError (.memory a)) := by
  simp [Memory.readPair, Memory.checkWords_outside ha hb]

theorem Memory.writeWord_ok {m : Memory} {a : Nat} (v : Word) (ha : a % 3 = 0) (hb : a + 3 ≤ m.size) :
    m.writeWord a v = .ok (m.putWord a v) := by
  simp [Memory.writeWord, Memory.checkWords_ok ha hb]

theorem Memory.writeWord_misaligned {m : Memory} {a : Nat} (v : Word) (ha : ¬ a % 3 = 0) :
    m.writeWord a v = .error (.alignmentError a) := by
  simp [Memory.writeWord, Memory.checkWords_misaligned ha]

theorem Memory.writeWord_outside {m : Memory} {a : Nat} (v : Word) (ha : a % 3 = 0)
    (hb : ¬ a + 3 ≤ m.size) : m.writeWord a v = .error (.addressError (.memory a)) := by
  simp [Memory.writeWord, Memory.checkWords_outside ha hb]

/-! ### The effective address -/

theorem effectiveAddress_immediate {o : Operand} (h : modeOf o = .immediate) (s : State) :
    effectiveAddress o s = .ok (immediateOf o) := by
  simp [effectiveAddress, h]

theorem effectiveAddress_simple {o : Operand} (h : modeOf o = .simple) (s : State) :
    effectiveAddress o s = .ok (targetAddress o s) := by
  simp [effectiveAddress, h]

theorem effectiveAddress_indirect {o : Operand} (h : modeOf o = .indirect) (s : State) :
    effectiveAddress o s = s.mem.readWord (targetAddress o s).toNat := by
  simp [effectiveAddress, h]

/-! ### Register operands -/

/-- Everything `regop24` can answer (R180): a 24-bit register, no register, or F. -/
theorem regop24_cases (n : BitVec 4) :
    (∃ q, regop24 n = .ok q) ∨ (regNumber n = none ∧ regop24 n = .error (.addressError (.register n))) ∨
      (regNumber n = some .f ∧ regop24 n = .error (.widthMismatch .f)) := by
  unfold regop24
  cases h : regNumber n with
  | none => exact .inr (.inl ⟨rfl, rfl⟩)
  | some r => cases r <;> simp [narrow]

/-! ### Running an executor -/

theorem runOperand_ok {op : Byte} {o : Operand} {body : Word → State → Except Failure State} {s : State}
    {ea : Word} (h : effectiveAddress o s = .ok ea) :
    runOperand op o body s =
      .next (finish (s.advance o.format.size) ⟨s.regs.pc, op, o.format, some ea⟩
        (body ea (s.advance o.format.size))) := by
  simp only [runOperand, h]; rfl

theorem runOperand_error {op : Byte} {o : Operand} {body : Word → State → Except Failure State} {s : State}
    {k : Failure} (h : effectiveAddress o s = .error k) :
    runOperand op o body s = .next (s.raise k s.regs.pc) := by
  simp only [runOperand, h]; rfl

/-- Everything a format-3/4 run can answer: a next state, by one of three ways. -/
theorem runOperand_cases (op : Byte) (o : Operand) (body : Word → State → Except Failure State) (s : State) :
    (∃ k, effectiveAddress o s = .error k ∧ runOperand op o body s = .next (s.raise k s.regs.pc)) ∨
    (∃ ea k, effectiveAddress o s = .ok ea ∧ body ea (s.advance o.format.size) = .error k ∧
      runOperand op o body s = .next ((s.advance o.format.size).raise k s.regs.pc)) ∨
    (∃ ea t, effectiveAddress o s = .ok ea ∧ body ea (s.advance o.format.size) = .ok t ∧
      runOperand op o body s = .next (t.log ⟨s.regs.pc, op, o.format, some ea⟩)) := by
  cases h : effectiveAddress o s with
  | error k => exact .inl ⟨k, rfl, runOperand_error h⟩
  | ok ea =>
    cases hb : body ea (s.advance o.format.size) with
    | error k => exact .inr (.inl ⟨ea, k, rfl, hb, by rw [runOperand_ok h, hb]; rfl⟩)
    | ok t => exact .inr (.inr ⟨ea, t, rfl, hb, by rw [runOperand_ok h, hb]; rfl⟩)

/-- Everything a format-2 run can answer. -/
theorem runRegs_cases (op : Byte) (body : State → Except Failure State) (s : State) :
    (∃ k, body (s.advance 2) = .error k ∧ runRegs op body s = .next ((s.advance 2).raise k s.regs.pc)) ∨
    (∃ t, body (s.advance 2) = .ok t ∧ runRegs op body s = .next (t.log ⟨s.regs.pc, op, .f2, none⟩)) := by
  cases hb : body (s.advance 2) with
  | error k => exact .inl ⟨k, rfl, by simp only [runRegs, Format.size, hb]; rfl⟩
  | ok t => exact .inr ⟨t, rfl, by simp only [runRegs, Format.size, hb]; rfl⟩

/-- Everything a format-1 run can answer. -/
theorem runPlain_cases (op : Byte) (body : State → Except Failure State) (s : State) :
    (∃ k, body (s.advance 1) = .error k ∧ runPlain op body s = .next ((s.advance 1).raise k s.regs.pc)) ∨
    (∃ t, body (s.advance 1) = .ok t ∧ runPlain op body s = .next (t.log ⟨s.regs.pc, op, .f1, none⟩)) := by
  cases hb : body (s.advance 1) with
  | error k => exact .inl ⟨k, rfl, by simp only [runPlain, Format.size, hb]; rfl⟩
  | ok t => exact .inr ⟨t, rfl, by simp only [runPlain, Format.size, hb]; rfl⟩

end Sys2Proof.Machine
end

