-- ==== Sys2Proof/Laws/Exec.lean ====
section
/-! SUPPORT. What each shared executor can do: if it answers a state, which one; and the ways it fails. -/

namespace Sys2Proof.Machine

/-! ### Arithmetic and logic -/

theorem accumulate_inv {f : Word → Word → Word} {o : Operand} {ea : Word} {s t : State}
    (h : accumulate f o ea s = .ok t) :
    ∃ m, operandWord o ea s.mem = .ok m ∧ t = s.writeResult .a (f (s.reg .a) m) := by
  unfold accumulate at h
  split at h
  · cases h
  · rename_i m hm; cases h; exact ⟨m, hm, rfl⟩

theorem divideA_inv {o : Operand} {ea : Word} {s t : State} (h : divideA o ea s = .ok t) :
    ∃ m, operandWord o ea s.mem = .ok m ∧ m ≠ 0 ∧ t = s.writeResult .a (quotient (s.reg .a) m) := by
  unfold divideA at h
  split at h
  · cases h
  · rename_i m hm
    split at h
    · cases h
    · rename_i hz; cases h; exact ⟨m, hm, hz, rfl⟩

theorem accumulateF_inv {f : FWord → FWord → FWord} {op : Byte} {o : Operand} {ea : Word} {s t : State}
    (h : accumulateF f op o ea s = .ok t) :
    ∃ m, operandF op o ea s.mem = .ok m ∧ t = s.writeResultF (f s.regF m) := by
  unfold accumulateF at h
  split at h
  · cases h
  · rename_i m hm; cases h; exact ⟨m, hm, rfl⟩

theorem combineRegs_inv {f : Word → Word → Except Failure Word} {r1 r2 : BitVec 4} {s t : State}
    (h : combineRegs f r1 r2 s = .ok t) :
    ∃ src dst v, regop24 r1 = .ok src ∧ regop24 r2 = .ok dst ∧ f (s.reg dst) (s.reg src) = .ok v ∧
      t = s.writeResult dst v := by
  unfold combineRegs at h
  split at h
  · cases h
  · rename_i src h1
    split at h
    · cases h
    · rename_i dst h2
      split at h
      · cases h
      · rename_i v h3; cases h; exact ⟨src, dst, v, h1, h2, h3, rfl⟩

theorem shiftReg_inv {f : Word → Nat → Word} {r1 r2 : BitVec 4} {s t : State}
    (h : shiftReg f r1 r2 s = .ok t) :
    ∃ d, regop24 r1 = .ok d ∧ t = s.writeResult d (f (s.reg d) (shiftCount r2)) := by
  unfold shiftReg at h
  split at h
  · cases h
  · rename_i d hd; cases h; exact ⟨d, hd, rfl⟩

theorem compareA_inv {o : Operand} {ea : Word} {s t : State} (h : compareA o ea s = .ok t) :
    ∃ m, operandWord o ea s.mem = .ok m ∧ t = s.setCode (compareCode (s.reg .a) m) := by
  unfold compareA at h
  split at h
  · cases h
  · rename_i m hm; cases h; exact ⟨m, hm, rfl⟩

theorem compareRegs_inv {r1 r2 : BitVec 4} {s t : State} (h : compareRegs r1 r2 s = .ok t) :
    ∃ p q, regop24 r1 = .ok p ∧ regop24 r2 = .ok q ∧
      t = s.setCode (compareCode (s.reg p) (s.reg q)) := by
  unfold compareRegs at h
  split at h
  · cases h
  · rename_i p hp
    split at h
    · cases h
    · rename_i q hq; cases h; exact ⟨p, q, hp, hq, rfl⟩

theorem incrementCompare_inv {r1 : BitVec 4} {s t : State} (h : incrementCompare r1 s = .ok t) :
    ∃ q, regop24 r1 = .ok q ∧
      t = (s.setReg .x (s.reg .x + 1)).setCode
        (compareCode (s.reg .x + 1) ((s.setReg .x (s.reg .x + 1)).reg q)) := by
  unfold incrementCompare at h
  split at h
  · cases h
  · rename_i q hq; cases h; exact ⟨q, hq, rfl⟩

theorem clearNumbered_inv {r1 : BitVec 4} {s t : State} (h : clearNumbered r1 s = .ok t) :
    ∃ r, regNumber r1 = some r ∧ t = (s.clearReg r).setCode 0 := by
  unfold clearNumbered at h
  split at h
  · cases h
  · rename_i r hr; cases h; exact ⟨r, hr, rfl⟩

/-! ### Loads and stores -/

theorem loadWord_inv {r : Reg24} {o : Operand} {ea : Word} {s t : State} (h : loadWord r o ea s = .ok t) :
    ∃ m, operandWord o ea s.mem = .ok m ∧ t = s.writeResult r m := by
  unfold loadWord at h
  split at h
  · cases h
  · rename_i m hm; cases h; exact ⟨m, hm, rfl⟩

theorem loadByte_inv {o : Operand} {ea : Word} {s t : State} (h : loadByte o ea s = .ok t) :
    ∃ c, operandByte o ea s.mem = .ok c ∧ t = s.writeResult .a (withLowByte (s.reg .a) c) := by
  unfold loadByte at h
  split at h
  · cases h
  · rename_i c hc; cases h; exact ⟨c, hc, rfl⟩

theorem storeWord_inv {op : Byte} {r : Reg24} {o : Operand} {ea : Word} {s t : State}
    (h : storeWord op r o ea s = .ok t) :
    ∃ m, s.mem.writeWord ea.toNat (s.reg r) = .ok m ∧ t = { s with mem := m } := by
  unfold storeWord at h
  split at h
  · cases h
  · split at h
    · cases h
    · rename_i m hm; cases h; exact ⟨m, hm, rfl⟩

theorem storeByte_inv {op : Byte} {o : Operand} {ea : Word} {s t : State} (h : storeByte op o ea s = .ok t) :
    ∃ m, s.mem.writeByte ea.toNat ((s.reg .a).extractLsb' 0 8) = .ok m ∧ t = { s with mem := m } := by
  unfold storeByte at h
  split at h
  · cases h
  · split at h
    · cases h
    · rename_i m hm; cases h; exact ⟨m, hm, rfl⟩

/-! ### Control and system -/

theorem jumpOnCode_inv {c ea : Word} {s t : State} (h : jumpOnCode c ea s = .ok t) :
    (s.reg .sw = c ∧ t = s.setReg .pc ea) ∨ (s.reg .sw ≠ c ∧ t = s) := by
  unfold jumpOnCode at h
  split at h
  · rename_i hc; cases h; exact .inl ⟨hc, rfl⟩
  · rename_i hc; cases h; exact .inr ⟨hc, rfl⟩

theorem returnToL_cases (s : State) :
    (s.reg .l = 0 ∧ returnToL s = (s.setReg .pc (s.reg .l)).signalHalt) ∨
    (s.reg .l ≠ 0 ∧ returnToL s = s.setReg .pc (s.reg .l)) := by
  unfold returnToL
  by_cases h : s.reg .l = 0
  · exact .inl ⟨h, if_pos h⟩
  · exact .inr ⟨h, if_neg h⟩

/-! ### Condition codes stay 0, 1 or 2 (R30) -/

theorem codeOfInt_le_two (v : Int) : (codeOfInt v).toNat ≤ 2 := by
  unfold codeOfInt; split
  · decide
  · split <;> decide

theorem compareCode_le_two (a b : Word) : (compareCode a b).toNat ≤ 2 := by
  unfold compareCode; split
  · decide
  · split <;> decide

theorem testDevice_code_le_two (s : State) : ((testDevice s).regs.sw).toNat ≤ 2 := by
  have h := (Config.ioTdValue s.draws).isLt
  show (BitVec.ofNat 24 (Config.ioTdValue s.draws).val).toNat ≤ 2
  rw [BitVec.toNat_ofNat, Nat.mod_eq_of_lt (by omega)]
  omega

end Sys2Proof.Machine
end

