-- ==== Sys2Proof/Laws/PerInstr.lean ====
section
/-! SUPPORT. The family EncodeLength: an instruction's encoding is as long as its format says, one lemma per
constructor. -/

namespace Sys2Proof.Laws.EncodeLength

/-- The encoding has as many bytes as the instruction's format (R80), between 1 and 4. -/
def Statement (i : Instr) : Prop :=
  (encode i).length = sizeOfInstr i ∧ 1 ≤ sizeOfInstr i ∧ sizeOfInstr i ≤ 4

/-- The length of a format-3/4 encoding (R83, R84). -/
theorem operand_length (op : Byte) (o : Operand) :
    (encodeOperand op o).length = o.format.size ∧ 1 ≤ o.format.size ∧ o.format.size ≤ 4 := by
  cases h : o.e <;> simp [encodeOperand, Operand.format, Format.size, h]

theorem lda (o : Operand) : Statement (.lda o) := operand_length _ o
theorem ldx (o : Operand) : Statement (.ldx o) := operand_length _ o
theorem ldl (o : Operand) : Statement (.ldl o) := operand_length _ o
theorem sta (o : Operand) : Statement (.sta o) := operand_length _ o
theorem stx (o : Operand) : Statement (.stx o) := operand_length _ o
theorem stl (o : Operand) : Statement (.stl o) := operand_length _ o
theorem add (o : Operand) : Statement (.add o) := operand_length _ o
theorem sub (o : Operand) : Statement (.sub o) := operand_length _ o
theorem mul (o : Operand) : Statement (.mul o) := operand_length _ o
theorem div (o : Operand) : Statement (.div o) := operand_length _ o
theorem comp (o : Operand) : Statement (.comp o) := operand_length _ o
theorem tix (o : Operand) : Statement (.tix o) := operand_length _ o
theorem jeq (o : Operand) : Statement (.jeq o) := operand_length _ o
theorem jgt (o : Operand) : Statement (.jgt o) := operand_length _ o
theorem jlt (o : Operand) : Statement (.jlt o) := operand_length _ o
theorem j (o : Operand) : Statement (.j o) := operand_length _ o
theorem and (o : Operand) : Statement (.and o) := operand_length _ o
theorem or (o : Operand) : Statement (.or o) := operand_length _ o
theorem jsub (o : Operand) : Statement (.jsub o) := operand_length _ o
theorem rsub (o : Operand) : Statement (.rsub o) := operand_length _ o
theorem ldch (o : Operand) : Statement (.ldch o) := operand_length _ o
theorem stch (o : Operand) : Statement (.stch o) := operand_length _ o
theorem addf (o : Operand) : Statement (.addf o) := operand_length _ o
theorem subf (o : Operand) : Statement (.subf o) := operand_length _ o
theorem mulf (o : Operand) : Statement (.mulf o) := operand_length _ o
theorem divf (o : Operand) : Statement (.divf o) := operand_length _ o
theorem ldb (o : Operand) : Statement (.ldb o) := operand_length _ o
theorem lds (o : Operand) : Statement (.lds o) := operand_length _ o
theorem ldf (o : Operand) : Statement (.ldf o) := operand_length _ o
theorem ldt (o : Operand) : Statement (.ldt o) := operand_length _ o
theorem stb (o : Operand) : Statement (.stb o) := operand_length _ o
theorem sts (o : Operand) : Statement (.sts o) := operand_length _ o
theorem stf (o : Operand) : Statement (.stf o) := operand_length _ o
theorem stt (o : Operand) : Statement (.stt o) := operand_length _ o
theorem compf (o : Operand) : Statement (.compf o) := operand_length _ o
theorem addr (r1 r2 : BitVec 4) : Statement (.addr r1 r2) := ⟨rfl, Nat.le_succ 1, Nat.le_add_left 2 2⟩
theorem subr (r1 r2 : BitVec 4) : Statement (.subr r1 r2) := ⟨rfl, Nat.le_succ 1, Nat.le_add_left 2 2⟩
theorem mulr (r1 r2 : BitVec 4) : Statement (.mulr r1 r2) := ⟨rfl, Nat.le_succ 1, Nat.le_add_left 2 2⟩
theorem divr (r1 r2 : BitVec 4) : Statement (.divr r1 r2) := ⟨rfl, Nat.le_succ 1, Nat.le_add_left 2 2⟩
theorem compr (r1 r2 : BitVec 4) : Statement (.compr r1 r2) := ⟨rfl, Nat.le_succ 1, Nat.le_add_left 2 2⟩
theorem shiftl (r1 r2 : BitVec 4) : Statement (.shiftl r1 r2) := ⟨rfl, Nat.le_succ 1, Nat.le_add_left 2 2⟩
theorem shiftr (r1 r2 : BitVec 4) : Statement (.shiftr r1 r2) := ⟨rfl, Nat.le_succ 1, Nat.le_add_left 2 2⟩
theorem rmo (r1 r2 : BitVec 4) : Statement (.rmo r1 r2) := ⟨rfl, Nat.le_succ 1, Nat.le_add_left 2 2⟩
theorem svc (r1 r2 : BitVec 4) : Statement (.svc r1 r2) := ⟨rfl, Nat.le_succ 1, Nat.le_add_left 2 2⟩
theorem clear (r1 r2 : BitVec 4) : Statement (.clear r1 r2) := ⟨rfl, Nat.le_succ 1, Nat.le_add_left 2 2⟩
theorem tixr (r1 r2 : BitVec 4) : Statement (.tixr r1 r2) := ⟨rfl, Nat.le_succ 1, Nat.le_add_left 2 2⟩
theorem float : Statement .float := ⟨rfl, Nat.le_refl 1, Nat.le_add_left 1 3⟩
theorem fix : Statement .fix := ⟨rfl, Nat.le_refl 1, Nat.le_add_left 1 3⟩
theorem norm : Statement .norm := ⟨rfl, Nat.le_refl 1, Nat.le_add_left 1 3⟩
theorem lps (o : Operand) : Statement (.lps o) := operand_length _ o
theorem sti (o : Operand) : Statement (.sti o) := operand_length _ o
theorem rd (o : Operand) : Statement (.rd o) := operand_length _ o
theorem wd (o : Operand) : Statement (.wd o) := operand_length _ o
theorem td (o : Operand) : Statement (.td o) := operand_length _ o
theorem stsw (o : Operand) : Statement (.stsw o) := operand_length _ o
theorem ssk (o : Operand) : Statement (.ssk o) := operand_length _ o
theorem sio : Statement .sio := ⟨rfl, Nat.le_refl 1, Nat.le_add_left 1 3⟩
theorem hio : Statement .hio := ⟨rfl, Nat.le_refl 1, Nat.le_add_left 1 3⟩
theorem tio : Statement .tio := ⟨rfl, Nat.le_refl 1, Nat.le_add_left 1 3⟩

end Sys2Proof.Laws.EncodeLength
end

