-- ==== Sys2Proof/Tests/Slice0.lean ====
section
/-! SUPPORT. The model's own tests.  Expected values are those of spec/95_test_vectors.md (the vector is
named before each test) or worked out by hand from the rule named; the witnesses at the end meet the
hypotheses of the obligations, clause by clause, at the ends of their ranges. -/

namespace Sys2Proof.Tests

open Sys2Proof.Machine

/-! ### Operands and machines the tests build -/

/-- A format-3 operand: `n`, `i` and the displacement. -/
def op3 (n i : Bool) (disp : BitVec 20) : Operand := ⟨n, i, false, false, false, false, disp⟩

/-- A format-4 operand: `n`, `i` and the address. -/
def op4 (n i : Bool) (addr : BitVec 20) : Operand := ⟨n, i, false, false, false, true, addr⟩

/-- The reset machine with registers `g`, the PC and the bytes at it, and more bytes in memory. -/
def start (g : Regs) (pc : Nat) (code : List Byte) (data : List (Nat × List Byte)) : State :=
  { State.reset with
    regs := { g with pc := BitVec.ofNat 24 pc }
    mem := data.foldl (fun m d => m.placeBytes d.1 d.2) (State.reset.mem.placeBytes pc code) }

/-- The state after one step. -/
def after (s : State) : Option State :=
  match step s with
  | .next t => some t
  | .fault _ => none
  | .refused _ => none

/-- One field of the state after one step. -/
def see {α : Type} (f : State → α) (s : State) : Option α := (after s).map f

/-- The fault record and the PC after one step. -/
def seeFault (s : State) : Option (Option FailureRecord × Word) := see (fun t => (t.fault, t.regs.pc)) s

/-- Three bytes of memory. -/
def bytesAt (a : Nat) (s : State) : List Byte := [s.mem.get a, s.mem.get (a + 1), s.mem.get (a + 2)]

/-- Registers with A set. -/
def withA (v : Word) : Regs := { Regs.zero with a := v }

/-! ### WellFormed refuses what no encoding holds -/

theorem test_wellFormed_format3_field : (Instr.add (op3 true true 0x1000)).wellFormed = false := by decide

theorem test_wellFormed_format3_top : (Instr.add (op3 true true 0xFFF)).wellFormed = true := by decide

theorem test_wellFormed_format4_top : (Instr.add (op4 true true 0xFFFFF)).wellFormed = true := by decide

/-! ### Decoding: one word for every constructor, written from R81 to R91 and R108

`op3 true true` is `n = i = 1` (low opcode bits 11), `op3 false true` immediate (01), `op3 true false`
indirect (10). -/

theorem test_decode_arithmetic :
    [decode [0x19, 0x00, 0x01], decode [0x1E, 0x0A, 0xBC], decode [0x23, 0x00, 0x30], decode [0x25, 0x0F, 0xFE],
     decode [0x5B, 0x1F, 0xFF, 0xFC], decode [0x5F, 0x00, 0x30], decode [0x63, 0x00, 0x01], decode [0x67, 0x00, 0x02]] =
    [.instr (.add (op3 false true 1)), .instr (.sub (op3 true false 0xABC)), .instr (.mul (op3 true true 0x30)),
     .instr (.div (op3 false true 0xFFE)), .instr (.addf (op4 true true 0xFFFFC)),
     .instr (.subf (op3 true true 0x30)), .instr (.mulf (op3 true true 1)), .instr (.divf (op3 true true 2))] := by
  decide

theorem test_decode_logic :
    [decode [0x41, 0x00, 0xFF], decode [0x45, 0x00, 0x0F], decode [0x2B, 0x00, 0x30], decode [0x2E, 0x00, 0x31],
     decode [0x8B, 0x00, 0x07]] =
    [.instr (.and (op3 false true 0xFF)), .instr (.or (op3 false true 0xF)), .instr (.comp (op3 true true 0x30)),
     .instr (.tix (op3 true false 0x31)), .instr (.compf (op3 true true 7))] := by decide

theorem test_decode_registers :
    [decode [0x90, 0x18], decode [0x94, 0x10], decode [0x98, 0x50], decode [0x9C, 0x40], decode [0xA0, 0x04],
     decode [0xA4, 0x0F], decode [0xA8, 0x03], decode [0xAC, 0x01], decode [0xB0, 0x20], decode [0xB4, 0xA0],
     decode [0xB8, 0x50]] =
    [.instr (.addr 1 8), .instr (.subr 1 0), .instr (.mulr 5 0), .instr (.divr 4 0), .instr (.compr 0 4),
     .instr (.shiftl 0 15), .instr (.shiftr 0 3), .instr (.rmo 0 1), .instr (.svc 2 0), .instr (.clear 10 0),
     .instr (.tixr 5 0)] := by decide

theorem test_decode_loads :
    [decode [0x03, 0x10, 0x12, 0x34], decode [0x07, 0x80, 0x30], decode [0x0B, 0x00, 0x30], decode [0x69, 0x00, 0x30],
     decode [0x6D, 0x00, 0x01], decode [0x75, 0x00, 0x05], decode [0x53, 0xC0, 0x00], decode [0x73, 0x00, 0x03]] =
    [.instr (.lda (op4 true true 0x01234)), .instr (.ldx ⟨true, true, true, false, false, false, 0x30⟩),
     .instr (.ldl (op3 true true 0x30)), .instr (.ldb (op3 false true 0x30)), .instr (.lds (op3 false true 1)),
     .instr (.ldt (op3 false true 5)), .instr (.ldch ⟨true, true, true, true, false, false, 0⟩),
     .instr (.ldf (op3 true true 3))] := by decide

theorem test_decode_stores :
    [decode [0x0E, 0x20, 0x03], decode [0x13, 0x80, 0x30], decode [0x17, 0x00, 0x33], decode [0x7B, 0x00, 0x30],
     decode [0x7F, 0x00, 0x30], decode [0x87, 0x1F, 0xFF, 0xFC], decode [0x57, 0xC0, 0x03], decode [0x83, 0x00, 0x01],
     decode [0xD7, 0x00, 0x01], decode [0xEB, 0x00, 0x01]] =
    [.instr (.sta ⟨true, false, false, false, true, false, 3⟩),
     .instr (.stx ⟨true, true, true, false, false, false, 0x30⟩), .instr (.stl (op3 true true 0x33)),
     .instr (.stb (op3 true true 0x30)), .instr (.sts (op3 true true 0x30)), .instr (.stt (op4 true true 0xFFFFC)),
     .instr (.stch ⟨true, true, true, true, false, false, 3⟩), .instr (.stf (op3 true true 1)),
     .instr (.sti (op3 true true 1)), .instr (.stsw (op3 true true 1))] := by decide

theorem test_decode_control :
    [decode [0x3F, 0x2F, 0xFD], decode [0x33, 0x20, 0x30], decode [0x37, 0x20, 0x30], decode [0x3B, 0x2F, 0xF7],
     decode [0x4B, 0x10, 0x00, 0x10], decode [0x4F, 0x00, 0x00]] =
    [.instr (.j ⟨true, true, false, false, true, false, 0xFFD⟩),
     .instr (.jeq ⟨true, true, false, false, true, false, 0x30⟩),
     .instr (.jgt ⟨true, true, false, false, true, false, 0x30⟩),
     .instr (.jlt ⟨true, true, false, false, true, false, 0xFF7⟩), .instr (.jsub (op4 true true 0x10)),
     .instr (.rsub (op3 true true 0))] := by decide

theorem test_decode_system :
    [decode [0xD3, 0x00, 0x30], decode [0xEF, 0x00, 0x00], decode [0xDB, 0x00, 0x00], decode [0xDF, 0x00, 0x00],
     decode [0xE3, 0x00, 0x00], decode [0xF0], decode [0xF4], decode [0xF8], decode [0xC0], decode [0xC4],
     decode [0xC8]] =
    [.instr (.lps (op3 true true 0x30)), .instr (.ssk (op3 true true 0)), .instr (.rd (op3 true true 0)),
     .instr (.wd (op3 true true 0)), .instr (.td (op3 true true 0)), .instr .sio, .instr .hio, .instr .tio,
     .instr .float, .instr .fix, .instr .norm] := by decide

/-- R109 (b), (c), R88: no row, a format-2 value with other low bits, and lists that end too soon. -/
theorem test_decode_rejects :
    [decode [0xBC, 0x00, 0x00], decode [0x91, 0x00, 0x00], decode [], decode [0x90], decode [0x00],
     decode [0x03, 0x10, 0x12]] =
    [.unregistered 0xBC (op3 false false 0), .unregistered 0x90 (op3 false true 0), .truncated, .truncated,
     .truncated, .truncated] := by decide

/-- The encoder writes the bytes of vectors S6, S8's mode and B20. -/
theorem test_encode :
    [encode (.stt (op4 true true 0xFFFFC)), encode (.sta (op3 true false 0x30)), encode (.shiftr 0 15), encode .sio] =
    [[0x87, 0x1F, 0xFF, 0xFC], [0x0E, 0x00, 0x30], [0xA8, 0x0F], [0xF0]] := by decide

/-- Table words: byte 0 is the least significant; bits from `nbits` up are 0. -/
theorem test_tableWord :
    [decodeTableWord 24 0x010019, decodeTableWord 32 0x10001048, decodeTableWord 16 0x1890, decodeTableWord 8 0xF0,
     decodeTableWord 8 0x4C, decodeTableWord 24 0x0000BC] =
    [some (.add (op3 false true 1)), some (.jsub (op4 false false 0x10)), some (.addr 1 8), some .sio,
     some (.rsub (op3 false false 0)), none] := by decide

/-- A placed word is the first instruction a step from reset runs: CLEAR X, then an unadmitted TIX. -/
theorem test_withFetchWord :
    see (fun t => (t.lastLog, t.regs.pc)) (State.reset.withFetchWord 16 0x10B4) = some (some ⟨0, 0xB4, .f2, none⟩, 2) ∧
    seeFault (State.reset.withFetchWord 24 0x00002F) = some (some ⟨.unsupportedOpcode 0x2C .f3, 0⟩, 3) := by decide

/-! ### Addressing (vectors E1 to E18) -/

-- E1, E2, E3, E4, E12: the failing word read shows the address.
theorem test_address_relative :
    seeFault (start Regs.zero 0 [0x03, 0x20, 0x10] []) = some (some ⟨.alignmentError 0x13, 0⟩, 3) ∧
    seeFault (start Regs.zero 0x100 [0x03, 0x2F, 0xFD] []) = some (some ⟨.alignmentError 0x100, 0x100⟩, 0x103) ∧
    seeFault (start { Regs.zero with b := 0x1000 } 0 [0x03, 0x40, 0x30] []) = some (some ⟨.alignmentError 0x1030, 0⟩, 3) ∧
    seeFault (start Regs.zero 0 [0x03, 0x48, 0x00] []) = some (some ⟨.alignmentError 0x800, 0⟩, 3) ∧
    seeFault (start { Regs.zero with b := 0x500 } 0 [0x03, 0x60, 0x10] []) = some (some ⟨.alignmentError 0x13, 0⟩, 3) := by
  decide

-- E14: the sum wraps at 24 bits; E15: a failure of phase 1 keeps the PC; E18: a fetch out of bounds.
theorem test_address_failures :
    seeFault (start Regs.zero 0 [0x03, 0x2F, 0xF0] []) = some (some ⟨.addressError (.memory 0xFFFFF3), 0⟩, 3) ∧
    seeFault (start Regs.zero 0 [0x02, 0x20, 0x01] []) = some (some ⟨.alignmentError 4, 0⟩, 0) ∧
    seeFault (start Regs.zero 0xFFFFF [0x00] []) = some (some ⟨.addressError (.memory 0x100000), 0xFFFFF⟩, 0xFFFFF) := by
  decide

-- E16, E17, Y9, Y10, Y11, R4: no executor; a failing address comes first.
theorem test_unsupported :
    seeFault (start Regs.zero 0 [0x91, 0x00, 0x00] []) = some (some ⟨.unsupportedOpcode 0x90 .f3, 0⟩, 3) ∧
    seeFault (start Regs.zero 0 [0xC4] []) = some (some ⟨.unsupportedOpcode 0xC4 .f1, 0⟩, 1) ∧
    seeFault (start Regs.zero 0 [0xF4] []) = some (some ⟨.unsupportedOpcode 0xF4 .f1, 0⟩, 1) ∧
    seeFault (start Regs.zero 0 [0x2F, 0x00, 0x00] []) = some (some ⟨.unsupportedOpcode 0x2C .f3, 0⟩, 3) ∧
    seeFault (start Regs.zero 0 [0xAC, 0x01] []) = some (some ⟨.unsupportedOpcode 0xAC .f2, 0⟩, 2) ∧
    seeFault (start Regs.zero 0 [0x2E, 0x00, 0x31] []) = some (some ⟨.alignmentError 0x31, 0⟩, 0) := by decide

/-! ### Arithmetic (vectors A1 to A27) -/

/-- A and SW. -/
def aSw (t : State) : Word × Word := (t.regs.a, t.regs.sw)

-- A1, A5.
theorem test_add_wraps : see aSw (start (withA 0x7FFFFF) 0 [0x19, 0x00, 0x01] []) = some (0x800000, 1) := by decide

theorem test_add_misaligned :
    seeFault (start (withA 5) 0 [0x1B, 0x00, 0x31] []) = some (some ⟨.alignmentError 0x31, 0⟩, 3) := by decide

-- A6, A7.
theorem test_sub_borrows : see aSw (start (withA 3) 0 [0x1D, 0x00, 0x05] []) = some (0xFFFFFE, 1) := by decide

theorem test_sub_wraps : see aSw (start (withA 0x800000) 0 [0x1D, 0x00, 0x01] []) = some (0x7FFFFF, 2) := by decide

-- A8, A9.
theorem test_mul_low_bits :
    see aSw (start (withA 0x1000) 0 [0x23, 0x00, 0x30] [(0x30, [0x00, 0x10, 0x00])]) = some (0, 0) := by decide

theorem test_mul_negative : see aSw (start (withA 0xFFFFFF) 0 [0x21, 0x00, 0x03] []) = some (0xFFFFFD, 1) := by decide

-- A10 (truncation toward zero), A12 and A13.
theorem test_div_truncates : see aSw (start (withA 0xFFFFF9) 0 [0x25, 0x00, 0x02] []) = some (0xFFFFFD, 1) := by decide

theorem test_div_corners :
    seeFault (start (withA 7) 0 [0x25, 0x00, 0x00] []) = some (some ⟨.arithmeticError .div, 0⟩, 3) ∧
    see aSw (start (withA 0x800000) 0 [0x25, 0x0F, 0xFF] []) = some (0x800000, 1) := by decide

-- A16 (reads the post-fetch PC), A17 (SW as destination), A18 and A19.
theorem test_addr_special :
    see (fun t => (t.regs.pc, t.regs.sw)) (start { Regs.zero with x := 0x10 } 0 [0x90, 0x18] []) = some (0x12, 2) ∧
    see aSw (start (withA 5) 0 [0x90, 0x09] []) = some (5, 2) := by decide

theorem test_addr_refuses :
    seeFault (start Regs.zero 0 [0x90, 0x06] []) = some (some ⟨.widthMismatch .f, 0⟩, 2) ∧
    seeFault (start Regs.zero 0 [0x90, 0x70] []) = some (some ⟨.addressError (.register 7), 0⟩, 2) := by decide

-- A20, A21, A22, A23.
theorem test_subr : see aSw (start { withA 10 with x := 3 } 0 [0x94, 0x10] []) = some (7, 2) := by decide

theorem test_mulr : see aSw (start { withA 7 with t := 6 } 0 [0x98, 0x50] []) = some (42, 2) := by decide

theorem test_divr : see aSw (start { withA 0xFFFFF6 with s := 4 } 0 [0x9C, 0x40] []) = some (0xFFFFFE, 1) := by decide

theorem test_divr_zero :
    seeFault (start Regs.zero 0 [0x9C, 0x00] []) = some (some ⟨.arithmeticError .divr, 0⟩, 2) := by decide

-- A24, A25, A26.
theorem test_addf :
    see (fun t => (t.regs.f, t.regs.sw))
      (start { Regs.zero with f := 1 } 0 [0x5B, 0x00, 0x30] [(0x30, [0x00, 0x00, 0x01, 0x00, 0x00, 0x02])]) =
      some (0x000001000003, 2) := by decide

theorem test_addf_refuses :
    seeFault (start Regs.zero 0 [0x59, 0x00, 0x30] []) = some (some ⟨.illegalAddressingMode 0x58, 0⟩, 3) ∧
    seeFault (start Regs.zero 0 [0x5B, 0x1F, 0xFF, 0xFC] []) =
      some (some ⟨.addressError (.memory 0xFFFFC), 0⟩, 4) := by decide

-- A27.
theorem test_subf :
    see (fun t => (t.regs.f, t.regs.sw))
      (start Regs.zero 0 [0x5F, 0x00, 0x30] [(0x30, [0x00, 0x00, 0x00, 0x00, 0x00, 0x01])]) =
      some (0xFFFFFFFFFFFF, 1) := by decide

/-! ### Logic, compare, shift, clear (vectors B1 to B21) -/

-- B1, B3.
theorem test_and : see aSw (start (withA 0x123456) 0 [0x41, 0x00, 0xFF] []) = some (0x56, 2) := by decide

theorem test_or : see aSw (start (withA 0x50) 0 [0x45, 0x00, 0x0F] []) = some (0x5F, 2) := by decide

-- B4, B6.
theorem test_comp_signed :
    see aSw (start (withA 0x7FFFFF) 0 [0x2B, 0x00, 0x30] [(0x30, [0x80, 0x00, 0x00])]) = some (0x7FFFFF, 2) := by decide

theorem test_comp_less : see aSw (start (withA 4) 0 [0x29, 0x00, 0x05] []) = some (4, 1) := by decide

-- B7.
theorem test_compr : see aSw (start { withA 3 with s := 9 } 0 [0xA0, 0x04] []) = some (3, 1) := by decide

-- B9, B10.
theorem test_tixr_wraps :
    see (fun t => (t.regs.x, t.regs.sw)) (start { Regs.zero with x := 0xFFFFFF } 0 [0xB8, 0x50] []) = some (0, 0) := by decide

theorem test_tixr_itself :
    see (fun t => (t.regs.x, t.regs.sw)) (start { Regs.zero with x := 7 } 0 [0xB8, 0x10] []) = some (8, 0) := by decide

-- B12, B13, B14.
theorem test_clear_f :
    see (fun t => (t.regs.f, t.regs.sw)) (start { Regs.zero with f := 0x123456789ABC, sw := 1 } 0 [0xB4, 0x60] []) =
      some (0, 0) := by decide

theorem test_clear_others :
    seeFault (start Regs.zero 0 [0xB4, 0xA0] []) = some (some ⟨.addressError (.register 10), 0⟩, 2) ∧
    see (fun t => t.regs.pc) (start Regs.zero 0x40 [0xB4, 0x80] []) = some 0 := by decide

-- B15, B16.
theorem test_shiftl_rotates : see aSw (start (withA 0x800001) 0 [0xA4, 0x00] []) = some (3, 2) := by decide

theorem test_shiftl_most : see aSw (start (withA 1) 0 [0xA4, 0x0F] []) = some (0x10000, 2) := by decide

-- B19, B20.
theorem test_shiftr_fills : see aSw (start (withA 0xF00000) 0 [0xA8, 0x03] []) = some (0xFF0000, 1) := by decide

theorem test_shiftr_most : see aSw (start (withA 0x7FFFFF) 0 [0xA8, 0x0F] []) = some (0x7F, 2) := by decide

/-! ### Loads and stores (vectors D1 to D9, S1 to S8) -/

-- E8, E9 (the two immediate forms); E11 (indirect).
theorem test_lda_immediate :
    see aSw (start Regs.zero 0 [0x01, 0x08, 0x00] []) = some (0xFFF800, 1) ∧
    see aSw (start Regs.zero 0 [0x01, 0x1F, 0xFF, 0xFF] []) = some (0x0FFFFF, 2) := by decide

theorem test_lda_indirect :
    see aSw (start Regs.zero 0 [0x02, 0x00, 0x30] [(0x30, [0x00, 0x00, 0x60]), (0x60, [0x00, 0xAB, 0xCD])]) =
      some (0xABCD, 2) := by decide

-- D5: the index is the old X.
theorem test_ldx_indexed :
    see (fun t => (t.regs.x, t.regs.sw)) (start { Regs.zero with x := 3 } 0 [0x07, 0x80, 0x30] [(0x33, [0, 0, 9])]) =
      some (9, 2) := by decide

-- D6, D7; LDS and LDT of programs P2 and P4.
theorem test_ldb : see (fun t => (t.regs.b, t.regs.sw)) (start Regs.zero 0 [0x69, 0x00, 0x30] []) = some (0x30, 2) := by decide

theorem test_ldl :
    see (fun t => (t.regs.l, t.regs.sw)) (start Regs.zero 0 [0x0B, 0x00, 0x30] [(0x30, [0x00, 0x01, 0x23])]) =
      some (0x123, 2) := by decide

theorem test_lds : see (fun t => (t.regs.s, t.regs.sw)) (start Regs.zero 0 [0x6D, 0x00, 0x01] []) = some (1, 2) := by decide

theorem test_ldt : see (fun t => (t.regs.t, t.regs.sw)) (start Regs.zero 0 [0x75, 0x00, 0x05] []) = some (5, 2) := by decide

-- D8, D9.
theorem test_ldch_memory :
    see aSw (start (withA 0x800000) 0 [0x53, 0x00, 0x31] [(0x31, [0x41])]) = some (0x800041, 1) := by decide

theorem test_ldch_immediate : see aSw (start (withA 0xABCD00) 0 [0x51, 0x01, 0x41] []) = some (0xABCD41, 1) := by decide

-- S1, S2.
theorem test_sta_immediate :
    seeFault (start (withA 5) 0 [0x0D, 0x00, 0x30] []) = some (some ⟨.illegalAddressingMode 0x0C, 0⟩, 3) := by decide

theorem test_sta_big_endian :
    see (fun t => (bytesAt 0x30 t, t.regs.sw)) (start { withA 0x123456 with sw := 1 } 0 [0x0F, 0x00, 0x30] []) =
      some ([0x12, 0x34, 0x56], 1) := by decide

-- S3.
theorem test_stch :
    see (bytesAt 0x33) (start (withA 0x123441) 0 [0x57, 0x00, 0x34] [(0x33, [0xAA, 0xBB, 0xCC])]) =
      some [0xAA, 0x41, 0xCC] := by decide

-- S4, S5.
theorem test_stl :
    see (bytesAt 0x33) (start { Regs.zero with l := 4 } 0 [0x17, 0x00, 0x33] []) = some [0x00, 0x00, 0x04] := by decide

theorem test_stl_misaligned :
    seeFault (start { Regs.zero with l := 4 } 0 [0x17, 0x00, 0x34] []) = some (some ⟨.alignmentError 0x34, 0⟩, 3) := by decide

-- S6 (the highest storable word), S7; STB and STS from R231 and R234.
theorem test_stt :
    see (bytesAt 0xFFFFC) (start { Regs.zero with t := 5 } 0 [0x87, 0x1F, 0xFF, 0xFC] []) = some [0x00, 0x00, 0x05] := by decide

theorem test_stx :
    see (bytesAt 0x33) (start { Regs.zero with x := 3 } 0 [0x13, 0x80, 0x30] []) = some [0x00, 0x00, 0x03] := by decide

theorem test_stb :
    see (bytesAt 0x30) (start { Regs.zero with b := 0x0A0B0C } 0 [0x7B, 0x00, 0x30] []) = some [0x0A, 0x0B, 0x0C] := by decide

theorem test_sts :
    see (bytesAt 0x30) (start { Regs.zero with s := 0x0A0B0C } 0 [0x7F, 0x00, 0x30] []) = some [0x0A, 0x0B, 0x0C] := by decide

/-! ### Control transfer (vectors T1 to T12) -/

/-- The PC. -/
def pcOf (t : State) : Word := t.regs.pc

-- T1, T3.
theorem test_j_self : see pcOf (start Regs.zero 0x100 [0x3F, 0x2F, 0xFD] []) = some 0x100 := by decide

theorem test_j_immediate : see pcOf (start Regs.zero 0 [0x3D, 0x00, 0x40] []) = some 0x40 := by decide

-- T4, T5.
theorem test_jeq_taken : see pcOf (start Regs.zero 0 [0x33, 0x20, 0x30] []) = some 0x33 := by decide

theorem test_jeq_not_taken : see pcOf (start { Regs.zero with sw := 2 } 0 [0x33, 0x20, 0x30] []) = some 3 := by decide

-- T6, T7.
theorem test_jlt_taken : see pcOf (start { Regs.zero with sw := 1 } 0 [0x3B, 0x20, 0x30] []) = some 0x33 := by decide

theorem test_jgt_not_taken : see pcOf (start { Regs.zero with sw := 1 } 0 [0x37, 0x20, 0x30] []) = some 3 := by decide

-- JGT taken, from R253.
theorem test_jgt_taken : see pcOf (start { Regs.zero with sw := 2 } 0 [0x37, 0x20, 0x30] []) = some 0x33 := by decide

-- T8.
theorem test_jsub : see (fun t => (t.regs.l, t.regs.pc)) (start Regs.zero 0 [0x4B, 0x10, 0x00, 0x10] []) = some (4, 0x10) := by decide

-- T9, T10.
theorem test_rsub_returns :
    see (fun t => (t.regs.pc, t.halted)) (start { Regs.zero with l := 4 } 0x30 [0x4F, 0x00, 0x00] []) = some (4, false) := by decide

theorem test_rsub_halts :
    see (fun t => (t.regs.pc, t.halted, t.history.length)) (start Regs.zero 0x30 [0x4F, 0x00, 0x00] []) =
      some (0, true, 1) := by decide

/-! ### System and reset (vectors Y1 to Y8, R1, R2) -/

-- Y1, Y2: what the rules fix whatever is drawn.
theorem test_rd : see (fun t => (t.regs.sw, t.regs.pc, t.draws))
    (start { withA 7 with sw := 1 } 0 [0xDB, 0x00, 0x00] []) = some (1, 3, 1) := by decide

theorem test_td : see (fun t => (t.regs.a, t.regs.pc, t.draws)) (start (withA 7) 0 [0xE3, 0x00, 0x00] []) =
    some (7, 3, 1) := by decide

-- Y3, Y4, Y5: only the PC and the history.
theorem test_pseudo_ops :
    see (fun t => t.regs) (start (withA 0x41) 0 [0xDF, 0x00, 0x00] []) = some { withA 0x41 with pc := 3 } ∧
    see (fun t => t.regs) (start Regs.zero 0 [0xD3, 0x00, 0x30] []) = some { Regs.zero with pc := 3 } ∧
    see (fun t => t.regs) (start Regs.zero 0 [0xEF, 0x00, 0x00] []) = some { Regs.zero with pc := 3 } := by decide

-- Y6, Y7.
theorem test_sio_tio :
    see (fun t => t.regs) (start Regs.zero 5 [0xF0] []) = some { Regs.zero with pc := 6 } ∧
    see (fun t => t.regs) (start { Regs.zero with sw := 2 } 5 [0xF8] []) = some { Regs.zero with pc := 6, sw := 2 } := by decide

-- Y8.
theorem test_svc : see (fun t => (t.regs.pc, t.halted)) (start Regs.zero 0x20 [0xB0, 0x00] []) = some (0x22, true) := by decide

-- T12's second step, R2's second step.
theorem test_stopped_steps :
    stepResult { start Regs.zero 0 [0x01, 0x00, 0x05] [] with halted := true } = some .noOp ∧
    stepResult { start Regs.zero 0 [0x01, 0x00, 0x05] [] with fault := some ⟨.arithmeticError .div, 0⟩ } =
      some (.failed ⟨.arithmeticError .div, 0⟩) := by decide

-- W1, W2.
theorem test_masking :
    (Regs.zero.setRaw .a 0x1234567).a = 0x234567 ∧ (Regs.zero.setRaw .f (2 ^ 48 + 5)).f = 5 ∧
    (Regs.zero.setRaw .t (-1)).t = 0xFFFFFF := by decide

-- R300's ordinals.
theorem test_failure_codes :
    [Failure.code (.addressError (.memory 0)), Failure.code (.alignmentError 0), Failure.code (.unsupportedOpcode 0 .f1),
     Failure.code (.arithmeticError .div), Failure.code (.widthMismatch .f), Failure.code (.illegalAddressingMode 0)] =
    [1, 2, 3, 4, 5, 6] := by decide

/-! ### Witnesses: hypotheses of the obligations, met together, clause by clause

`witness_<Name>` belongs to `Obligations.<Name>`.  Memory is the reset machine's, 0x100000 bytes, so the
last word address is 0xFFFFC and the last aligned address 0xFFFFF. -/

/-- The reset machine. -/
abbrev z : State := State.reset

/-- A machine with the word 0xFFFFFC at 0x30 and L and X set. -/
def busy : State := start { Regs.zero with l := 4, x := 3, a := 0x123456 } 0 [0x0F, 0x00, 0x30] [(0x30, [0xFF, 0xFF, 0xFC])]

theorem witness_RegisterWriteMasksToWidth : RegName.a ≠ .f ∧ RegName.f = .f ∧ RegName.x ≠ RegName.a := by decide

theorem witness_WrongWidthAccessorFails :
    RegName.f = .f ∧ RegName.sw ≠ .f ∧ regNumber 6 = some .f ∧ regNumber 9 = some .sw := by decide

theorem witness_ClearZeroesOneRegister : RegName.pc ≠ .f ∧ RegName.f = .f ∧ RegName.x ≠ RegName.f := by decide

/-- An image that ends with memory, and one a byte longer. -/
theorem witness_LoaderCopiesTheImage :
    z.mem.wf = true ∧ 0xFFFFE + [0x41#8, 0x42#8].length ≤ z.mem.size ∧
    [0x41#8, 0x42#8] ≠ [] ∧ z.mem.size < 0xFFFFF + [0x41#8, 0x42#8].length := by decide

theorem witness_RunUntilHaltedStopsWhereTheSpecSays :
    0 < 1 ∧ 0 < 2 ∧ (stepResult (start Regs.zero 0 [0xB0, 0x00] []) = some (.executed ⟨0, 0xB0, .f2, none⟩) ∧ 2 ≠ 1) ∧
    (runUntilHalted 1 (start Regs.zero 0 [0xF0] [])).2 = some (.executed ⟨0, 0xF0, .f1, none⟩) ∧
    (runUntilHalted 2 (start Regs.zero 0 [0xB0, 0x00] [])).2 = some .noOp ∧
    (runUntilHalted 1 (start Regs.zero 0 [0xC4] [])).2 = some (.failed ⟨.unsupportedOpcode 0xC4 .f1, 0⟩) := by decide

theorem witness_ByteAccessReadsWhatWasWritten :
    0xFFFFF < z.mem.size ∧ z.mem.wf = true ∧ z.mem.size ≤ 0x100000 := by decide

theorem witness_WordAccessIsBigEndianAlignedAndBounded :
    (0xFFFFC % 3 = 0 ∧ 0xFFFFC + 3 ≤ z.mem.size ∧ z.mem.wf = true) ∧ ¬ 0xFFFFD % 3 = 0 ∧
    (0xFFFFF % 3 = 0 ∧ z.mem.size < 0xFFFFF + 3) := by decide

theorem witness_ExtendedAccessIsFourBytes :
    0xFFFFC + 4 ≤ z.mem.size ∧ z.mem.wf = true ∧ z.mem.size < 0xFFFFD + 4 := by decide

theorem witness_RegisterNumbersAsListed : 10 ≤ (10 : BitVec 4).toNat ∧ 10 ≤ (15 : BitVec 4).toNat := by decide

/-- `b0` of each class, with `e` clear and set. -/
theorem witness_DecoderReadsEveryField :
    0xF8#8 ∈ [0xC0#8, 0xC4#8, 0xC8#8, 0xF0#8, 0xF4#8, 0xF8#8] ∧ 0x91#8 ∉ [0xC0#8, 0xC4#8, 0xC8#8, 0xF0#8, 0xF4#8, 0xF8#8] ∧
    0xB8#8 ∈ [0x90#8, 0x94#8, 0x98#8, 0x9C#8, 0xA0#8, 0xA4#8, 0xA8#8, 0xAC#8, 0xB0#8, 0xB4#8, 0xB8#8] ∧
    0x91#8 ∉ [0x90#8, 0x94#8, 0x98#8, 0x9C#8, 0xA0#8, 0xA4#8, 0xA8#8, 0xAC#8, 0xB0#8, 0xB4#8, 0xB8#8] ∧
    (0xEF#8).getLsbD 4 = false ∧ (0x10#8).getLsbD 4 = true := by decide

/-- Both sides of the equivalence: an unassigned opcode, a format-2 value as format 3, and an opcode with a row. -/
theorem witness_UnassignedOpcodesAreRejectedByName :
    decode [0xFF, 0, 0, 0] = .unregistered 0xFC (op3 true true 0) ∧
    decode [0xFB, 0, 0, 0] = .unregistered 0xF8 (op3 true true 0) ∧
    decode [0xEF, 0, 0, 0] = .instr (.ssk (op3 true true 0)) := by decide

theorem witness_DecodeOfEncodeIsTheInstruction :
    (Instr.lda (op3 true true 0xFFF)).wellFormed = true ∧ (Instr.lda (op4 true true 0xFFFFF)).wellFormed = true ∧
    (Instr.divr 15 15).wellFormed = true ∧ Instr.hio.wellFormed = true := by decide

theorem witness_EncodeOfDecodeIsTheBytes : decode [0x0F, 0xFF, 0xFF, 0xFF] = .instr (.sta ⟨true, true, true, true, true, true, 0xFFFFF⟩) := by
  decide

/-- Immediate operands at the ends of both literals. -/
theorem witness_ImmediateAddressIsTheLiteral :
    ((op3 false true 0x7FF).n = false ∧ (op3 false true 0x7FF).i = true) ∧
    ((op3 false true 0x800).n = false ∧ (op3 false true 0x800).i = true) ∧
    ((op4 false true 0xFFFFF).n = false ∧ (op4 false true 0xFFFFF).i = true) := by decide

theorem witness_SimpleAddressIsTheSum :
    (op3 true true 0x800).n = (op3 true true 0x800).i ∧ (op4 false false 0xFFFFF).n = (op4 false false 0xFFFFF).i := by decide

/-- Indirect through the last word of memory, a misaligned address, and the aligned one that does not fit. -/
theorem witness_IndirectAddressIsTheWordAtTheTarget :
    ((op4 true false 0xFFFFC).n = true ∧ (op4 true false 0xFFFFC).i = false) ∧
    effectiveAddress (op4 true true 0xFFFFC) z = .ok 0xFFFFC ∧ (Aligned 0xFFFFC ∧ Fits z.mem 0xFFFFC 3) ∧
    effectiveAddress (op4 true true 0xFFFFD) z = .ok 0xFFFFD ∧ ¬ Aligned 0xFFFFD ∧
    effectiveAddress (op4 true true 0xFFFFF) z = .ok 0xFFFFF ∧ (Aligned 0xFFFFF ∧ ¬ Fits z.mem 0xFFFFF 3) :=
  ⟨by decide, rfl, by decide, rfl, by decide, rfl, by decide⟩

theorem witness_PcRelativeIgnoresB : (⟨true, true, false, true, true, false, 0x10⟩ : Operand).p = true := by decide

theorem witness_StepRunsTheDecodedInstruction :
    Running busy ∧ decode (fetchWindow busy) = .instr (.sta (op3 true true 0x30)) := by decide

/-- The encoding that ends exactly with memory. -/
theorem witness_StepRunsTheEncodingAtThePc :
    let s := start Regs.zero 0xFFFFD [0x0F, 0x00, 0x30] []
    Running s ∧ (Instr.sta (op3 true true 0x30)).wellFormed = true ∧
    s.regs.pc.toNat + (encode (.sta (op3 true true 0x30))).length ≤ s.mem.size ∧
    ∀ (k : Nat) (h : k < (encode (.sta (op3 true true 0x30))).length),
      s.mem.get (s.regs.pc.toNat + k) = (encode (.sta (op3 true true 0x30)))[k] := by decide

/-- The PC past the end, and one, two and three bytes before it. -/
theorem witness_FetchPastTheEndFails :
    let one : List Byte := [0xC0, 0xC4, 0xC8, 0xF0, 0xF4, 0xF8]
    let two : List Byte := [0x90, 0x94, 0x98, 0x9C, 0xA0, 0xA4, 0xA8, 0xAC, 0xB0, 0xB4, 0xB8]
    let s1 := start Regs.zero 0xFFFFF [0x90] []
    let s2 := start Regs.zero 0xFFFFE [0x91, 0x00] []
    let s3 := start Regs.zero 0xFFFFD [0x03, 0x10, 0x00] []
    let s0 := start Regs.zero 0x100000 [] []
    (Running s0 ∧ s0.mem.size ≤ s0.regs.pc.toNat) ∧
    (Running s1 ∧ s1.regs.pc.toNat + 1 = s1.mem.size ∧ s1.mem.get s1.regs.pc.toNat ∉ one) ∧
    (Running s2 ∧ s2.regs.pc.toNat + 2 = s2.mem.size ∧ s2.mem.get s2.regs.pc.toNat ∉ one ∧
      s2.mem.get s2.regs.pc.toNat ∉ two) ∧
    (Running s3 ∧ s3.regs.pc.toNat + 3 = s3.mem.size ∧ s3.mem.get s3.regs.pc.toNat ∉ one ∧
      s3.mem.get s3.regs.pc.toNat ∉ two ∧ (s3.mem.get (s3.regs.pc.toNat + 1)).getLsbD 4 = true) := by decide

/-- 0x91 in simple mode, whose address is known, and 0x92 in indirect mode through a misaligned word. -/
theorem witness_UnassignedEncodingFailsAtDispatch :
    (Running (start Regs.zero 0 [0x93, 0x00, 0x31] []) ∧
      decode (fetchWindow (start Regs.zero 0 [0x93, 0x00, 0x31] [])) = .unregistered 0x90 (op3 true true 0x31)) ∧
    effectiveAddress (op3 true true 0x31) (start Regs.zero 0 [0x93, 0x00, 0x31] []) = .ok 0x31 ∧
    (Running (start Regs.zero 0 [0x92, 0x00, 0x31] []) ∧
      decode (fetchWindow (start Regs.zero 0 [0x92, 0x00, 0x31] [])) = .unregistered 0x90 (op3 true false 0x31)) ∧
    effectiveAddress (op3 true false 0x31) (start Regs.zero 0 [0x92, 0x00, 0x31] []) = .error (.alignmentError 0x31) :=
  ⟨by decide, rfl, by decide, rfl⟩

theorem witness_StoppedStepChangesNothing :
    (({ z with halted := true } : State).fault = none ∧ ({ z with halted := true } : State).halted = true) ∧
    ({ z with fault := some ⟨.arithmeticError .div, 0⟩ } : State).fault = some ⟨.arithmeticError .div, 0⟩ := by decide

/-- Each of the three results is returned somewhere. -/
theorem witness_EveryStepReturnsOneResult :
    stepResult busy = some (.executed ⟨0, 0x0C, .f3, some 0x30⟩) ∧
    stepResult { z with halted := true } = some .noOp ∧
    stepResult (start Regs.zero 0 [0xC4] []) = some (.failed ⟨.unsupportedOpcode 0xC4 .f1, 0⟩) := by decide

theorem witness_DecodeFailureChangesOnlyTheFault :
    (Instr.tix (op3 true false 0x31)).fields = .operand (op3 true false 0x31) ∧
    effectiveAddress (op3 true false 0x31) z = .error (.alignmentError 0x31) := ⟨rfl, rfl⟩

/-- All three outcomes occur: a failing address, a failing operand, a completion. -/
theorem witness_EveryInstructionCompletesOrFailsPrecisely :
    exec (.lda (op3 true false 0x31)) z = .next (failedInDecode z (.alignmentError 0x31)) ∧
    exec (.lda (op3 true true 0x31)) z = .next (failedInExecute (.lda (op3 true true 0x31)) z (.alignmentError 0x31)) ∧
    exec .sio z = .next (completed .sio none z (advanced .sio z) z.mem) := ⟨rfl, rfl, rfl⟩

/-- SVC and RSUB with L = 0 from a running state, and RSUB with L = 4. -/
theorem witness_OnlySvcAndRsubHalt :
    z.halted = false ∧ (∃ t, exec (.svc 0 0) z = .next t ∧ t.halted = true) ∧
    (∃ t, exec (.rsub (op3 true true 0)) z = .next t ∧ t.halted = true) ∧
    (∃ t, exec (.rsub (op3 true true 0)) busy = .next t ∧ t.halted = false) :=
  ⟨rfl, ⟨_, rfl, rfl⟩, ⟨_, rfl, rfl⟩, ⟨_, rfl, rfl⟩⟩

/-- STA at 0x30: its bytes are the stored ones, 0x2F and 0x33 are outside; a step that changes memory. -/
theorem witness_OnlyStoresWriteMemory :
    storeWidth (.sta (op3 true true 0x30)) = some 3 ∧ storeWidth (.lda (op3 true true 0x30)) = none ∧
    effectiveAddress (op3 true true 0x30) busy = .ok 0x30 ∧
    (0x2F < (0x30 : Word).toNat ∧ (0x30 : Word).toNat + 3 ≤ 0x33) ∧
    (after busy).map (fun t => decide (t.mem = busy.mem)) = some false :=
  ⟨rfl, rfl, rfl, by decide, by decide⟩

theorem witness_RegistersChangeOnlyAsListed :
    (∃ t, exec (.addr 1 0) busy = .next t ∧ t.regs.a = 0x123459) ∧ Reg24.x ≠ .pc ∧ ¬ mayWrite (.sta (op3 true true 0)) .x ∧
    ¬ mayWriteF (.addr 1 0) := ⟨⟨_, rfl, rfl⟩, by decide, by simp [mayWrite], by simp [mayWriteF]⟩

theorem witness_EveryStepKeepsTheInvariant :
    Inv busy ∧ see (fun t => t.history.length) busy = some 1 := by decide

theorem witness_HistoryIsNotObservable : see (fun t => t.halted) busy = some false := by decide

theorem witness_OnlyRdAndTdTakeDraws :
    takesDraw (.sta (op3 true true 0x30)) = false ∧ see (fun t => t.halted) busy = some false := by decide

/-! Operand clauses that several statements share -/

/-- Immediate mode, the last word of memory, a misaligned address, the aligned one that does not fit. -/
def WordClauses : Prop :=
  (effectiveAddress (op3 false true 0x800) z = .ok 0xFFF800 ∧ WordReady (op3 false true 0x800) 0xFFF800 z.mem) ∧
  (effectiveAddress (op4 true true 0xFFFFC) z = .ok 0xFFFFC ∧ WordReady (op4 true true 0xFFFFC) 0xFFFFC z.mem) ∧
  (effectiveAddress (op4 true true 0xFFFFD) z = .ok 0xFFFFD ∧ modeOf (op4 true true 0xFFFFD) ≠ .immediate ∧
    ¬ Aligned 0xFFFFD) ∧
  (effectiveAddress (op4 true true 0xFFFFF) z = .ok 0xFFFFF ∧ modeOf (op4 true true 0xFFFFF) ≠ .immediate ∧
    Aligned 0xFFFFF ∧ ¬ Fits z.mem 0xFFFFF 3)

theorem witness_words : WordClauses :=
  ⟨⟨rfl, by decide⟩, ⟨rfl, by decide⟩, ⟨rfl, by decide, by decide⟩, ⟨rfl, by decide, by decide, by decide⟩⟩

theorem witness_AddSubMulOnA : WordClauses := witness_words

theorem witness_AndOrOnA : WordClauses := witness_words

theorem witness_CompComparesSigned : WordClauses := witness_words

theorem witness_WordLoadsSetTheirRegister : WordClauses := witness_words

/-- The clauses of an operand word, a divisor that is not 0 and one that is. -/
theorem witness_DivTruncatesTowardZero :
    WordClauses ∧ wordValue (op3 false true 0x800) 0xFFF800 z.mem ≠ 0 ∧
    wordValue (op4 true true 0xFFFFC) 0xFFFFC z.mem = 0 := ⟨witness_words, by decide, by decide⟩

/-- The last pair of memory, immediate mode, a misaligned address, the aligned one that does not fit. -/
theorem witness_AddfSubfOnF :
    (effectiveAddress (op4 true true 0xFFFF9) z = .ok 0xFFFF9 ∧ modeOf (op4 true true 0xFFFF9) ≠ .immediate ∧
      Aligned 0xFFFF9 ∧ Fits z.mem 0xFFFF9 6) ∧
    (effectiveAddress (op3 false true 0x30) z = .ok 0x30 ∧ modeOf (op3 false true 0x30) = .immediate) ∧
    (effectiveAddress (op4 true true 0xFFFFA) z = .ok 0xFFFFA ∧ modeOf (op4 true true 0xFFFFA) ≠ .immediate ∧
      ¬ Aligned 0xFFFFA) ∧
    (effectiveAddress (op4 true true 0xFFFFC) z = .ok 0xFFFFC ∧ modeOf (op4 true true 0xFFFFC) ≠ .immediate ∧
      Aligned 0xFFFFC ∧ ¬ Fits z.mem 0xFFFFC 6) :=
  ⟨⟨rfl, by decide, by decide, by decide⟩, ⟨rfl, by decide⟩, ⟨rfl, by decide, by decide⟩,
   ⟨rfl, by decide, by decide, by decide⟩⟩

/-- Immediate mode, the last byte of memory, the first address past it. -/
theorem witness_LdchReplacesTheLowByte :
    (effectiveAddress (op3 false true 0xFFF) z = .ok 0xFFFFFF ∧ ByteReady (op3 false true 0xFFF) 0xFFFFFF z.mem) ∧
    (effectiveAddress (op4 true true 0xFFFFF) z = .ok 0xFFFFF ∧ ByteReady (op4 true true 0xFFFFF) 0xFFFFF z.mem) ∧
    (effectiveAddress ⟨true, true, false, false, true, true, 0xFFFFC⟩ z = .ok 0x100000 ∧
      modeOf ⟨true, true, false, false, true, true, 0xFFFFC⟩ ≠ .immediate ∧ ¬ Fits z.mem 0x100000 1) :=
  ⟨⟨rfl, by decide⟩, ⟨rfl, by decide⟩, ⟨rfl, by decide, by decide⟩⟩

theorem witness_WordStoresWriteThreeBytes :
    (z.mem.wf = true ∧ effectiveAddress (op4 true true 0xFFFFC) z = .ok 0xFFFFC ∧
      modeOf (op4 true true 0xFFFFC) ≠ .immediate ∧ Aligned 0xFFFFC ∧ Fits z.mem 0xFFFFC 3) ∧
    (effectiveAddress (op3 false true 0x30) z = .ok 0x30 ∧ modeOf (op3 false true 0x30) = .immediate) ∧ WordClauses :=
  ⟨⟨rfl, rfl, by decide, by decide, by decide⟩, ⟨rfl, by decide⟩, witness_words⟩

theorem witness_StchWritesOneByte :
    (z.mem.wf = true ∧ effectiveAddress (op4 true true 0xFFFFF) z = .ok 0xFFFFF ∧
      modeOf (op4 true true 0xFFFFF) ≠ .immediate ∧ Fits z.mem 0xFFFFF 1) ∧
    (effectiveAddress (op3 false true 0x30) z = .ok 0x30 ∧ modeOf (op3 false true 0x30) = .immediate) ∧
    (effectiveAddress ⟨true, true, false, false, true, true, 0xFFFFC⟩ z = .ok 0x100000 ∧
      modeOf ⟨true, true, false, false, true, true, 0xFFFFC⟩ ≠ .immediate ∧ ¬ Fits z.mem 0x100000 1) :=
  ⟨⟨rfl, rfl, by decide, by decide⟩, ⟨rfl, by decide⟩, ⟨rfl, by decide, by decide⟩⟩

/-- An address in each of the three modes. -/
def AddressClauses : Prop :=
  effectiveAddress (op3 false true 0x800) busy = .ok 0xFFF800 ∧ effectiveAddress (op3 true false 0x30) busy = .ok 0xFFFFFC ∧
  effectiveAddress (op4 true true 0xFFFFF) busy = .ok 0xFFFFF

theorem witness_addresses : AddressClauses := ⟨rfl, rfl, rfl⟩

/-- Each branch on the condition code is met by reset (0) and by the codes 1 and 2. -/
theorem witness_JumpsTakeTheEffectiveAddress : AddressClauses := witness_addresses

theorem witness_JsubSavesThePostFetchPc : AddressClauses := witness_addresses

theorem witness_RsubReturnsOrHalts : AddressClauses ∧ z.regs.l = 0 ∧ busy.regs.l ≠ 0 :=
  ⟨witness_addresses, by decide, by decide⟩

theorem witness_PseudoOpsOnlyAdvance : AddressClauses := witness_addresses

theorem witness_RdAndTdTakeOneDraw : AddressClauses := witness_addresses

/-! Register clauses -/

/-- Two good numbers, SW among them; a number that names none; F; a good r1 with each bad r2. -/
def RegisterClauses : Prop :=
  (regop24 0 = .ok .a ∧ regop24 9 = .ok .sw) ∧ regop24 15 = .error (.addressError (.register 15)) ∧
  regop24 6 = .error (.widthMismatch .f) ∧ (true = true ∧ regop24 8 = .ok .pc ∧ regop24 7 = .error (.addressError (.register 7)))

theorem witness_registers : RegisterClauses := ⟨⟨rfl, rfl⟩, rfl, rfl, rfl, rfl, rfl⟩

theorem witness_RegisterAddSubMul : RegisterClauses := witness_registers

theorem witness_ComprComparesSigned : RegisterClauses := witness_registers

theorem witness_TixrIncrementsThenCompares : RegisterClauses := witness_registers

theorem witness_ShiftsRotateLeftAndFillRight : RegisterClauses := witness_registers

/-- DIVR: a divisor that is not 0, and one that is. -/
theorem witness_DivrTruncatesTowardZero :
    RegisterClauses ∧ (advanced (.divr 0 0) busy).get .a ≠ 0 ∧ (advanced (.divr 0 0) z).get .a = 0 :=
  ⟨witness_registers, by decide, by decide⟩

theorem witness_ClearZeroesAnyRegister :
    regop24 9 = .ok .sw ∧ (6 : BitVec 4) = 6 ∧ ((7 : BitVec 4) = 7 ∨ 10 ≤ (7 : BitVec 4).toNat) ∧
    ((10 : BitVec 4) = 7 ∨ 10 ≤ (10 : BitVec 4).toNat) := ⟨rfl, rfl, by decide, by decide⟩

/-- A format-3/4 instruction with no executor whose address is known, and one with no operand. -/
theorem witness_InstructionsWithoutExecutorFail :
    (unregistered (.tix (op3 true true 0x31)) = true ∧
      ∀ o, (Instr.tix (op3 true true 0x31)).fields = .operand o → ∃ ea, effectiveAddress o z = .ok ea) ∧
    (unregistered .hio = true ∧ ∀ o, Instr.hio.fields = .operand o → ∃ ea, effectiveAddress o z = .ok ea) :=
  ⟨⟨rfl, fun _ h => by cases h; exact ⟨0x31, rfl⟩⟩, ⟨rfl, fun _ h => by cases h⟩⟩

end Sys2Proof.Tests
end

section
/-! PROOFS. The register file's methods (spec/10_state.md R23, R24, R25).  `narrow` splits the names into F and
the eight 24-bit registers; a clear is a write of 0, so the rules of a write serve both. -/

namespace Sys2Proof.Machine

/-! ### The width of a register -/

theorem narrow_eq_none_iff (r : RegName) : narrow r = none ↔ r = .f := by
  cases r <;> simp [narrow]

theorem exists_narrow_of_ne_f {r : RegName} (h : r ≠ .f) : ∃ k, narrow r = some k :=
  Option.ne_none_iff_exists'.mp (mt (narrow_eq_none_iff r).mp h)

/-- Two names of one 24-bit register are the same name: there are no aliases (R20). -/
theorem narrow_inj {q r : RegName} {k : Reg24} (hq : narrow q = some k) (hr : narrow r = some k) : q = r := by
  cases q <;> cases hq <;> cases r <;> cases hr <;> rfl

/-! ### The two accessors (R23) -/

theorem Regs.get24_of_narrow (g : Regs) {r : RegName} {k : Reg24} (h : narrow r = some k) :
    g.get24 r = .ok (g.get k) := by
  simp only [Regs.get24, h]

theorem Regs.get48_of_narrow (g : Regs) {r : RegName} {k : Reg24} (h : narrow r = some k) :
    g.get48 r = .error (.widthMismatch r) := by
  simp only [Regs.get48, h]

@[simp] theorem Regs.get24_f (g : Regs) : g.get24 .f = .error (.widthMismatch .f) := rfl
@[simp] theorem Regs.get48_f (g : Regs) : g.get48 .f = .ok g.f := rfl

theorem regop24_of_narrow {n : BitVec 4} {r : RegName} {k : Reg24} (hn : regNumber n = some r)
    (hr : narrow r = some k) : regop24 n = .ok k := by
  simp only [regop24, hn, hr]

theorem regop24_of_f {n : BitVec 4} (hn : regNumber n = some .f) : regop24 n = .error (.widthMismatch .f) := by
  simp only [regop24, hn, narrow]

/-! ### A write by name (R24) -/

/-- A write of F leaves every 24-bit register. -/
@[simp] theorem Regs.get_with_f (g : Regs) (v : FWord) (k : Reg24) : ({ g with f := v } : Regs).get k = g.get k := by
  cases k <;> rfl

theorem Regs.setRaw_of_narrow (g : Regs) {r : RegName} {k : Reg24} (h : narrow r = some k) (raw : Int) :
    g.setRaw r raw = g.set k (BitVec.ofInt 24 raw) := by
  simp only [Regs.setRaw, h]

@[simp] theorem Regs.setRaw_f (g : Regs) (raw : Int) : g.setRaw .f raw = { g with f := BitVec.ofInt 48 raw } := rfl

theorem Regs.get24_setRaw_same (g : Regs) {r : RegName} (h : r ≠ .f) (raw : Int) :
    (g.setRaw r raw).get24 r = .ok (BitVec.ofInt 24 raw) := by
  obtain ⟨k, hk⟩ := exists_narrow_of_ne_f h
  rw [Regs.get24_of_narrow _ hk, Regs.setRaw_of_narrow g hk, Regs.get_set_same]

theorem Regs.get48_setRaw_f (g : Regs) (raw : Int) : (g.setRaw .f raw).get48 .f = .ok (BitVec.ofInt 48 raw) := rfl

theorem Regs.get24_setRaw_ne (g : Regs) {q r : RegName} (h : q ≠ r) (raw : Int) :
    (g.setRaw r raw).get24 q = g.get24 q := by
  by_cases hq : q = .f
  · subst hq; rfl
  obtain ⟨k, hk⟩ := exists_narrow_of_ne_f hq
  rw [Regs.get24_of_narrow _ hk, Regs.get24_of_narrow _ hk]
  by_cases hr : r = .f
  · simp [hr]
  obtain ⟨m, hm⟩ := exists_narrow_of_ne_f hr
  have hkm : k ≠ m := fun e => h (narrow_inj hk (e ▸ hm))
  rw [Regs.setRaw_of_narrow g hm, Regs.get_set_ne g _ hkm]

theorem Regs.get48_setRaw_ne (g : Regs) {q r : RegName} (h : q ≠ r) (raw : Int) :
    (g.setRaw r raw).get48 q = g.get48 q := by
  by_cases hq : q = .f
  · subst hq
    obtain ⟨m, hm⟩ := exists_narrow_of_ne_f h.symm
    simp [Regs.setRaw_of_narrow g hm]
  · obtain ⟨k, hk⟩ := exists_narrow_of_ne_f hq
    rw [Regs.get48_of_narrow _ hk, Regs.get48_of_narrow _ hk]

/-- `mask_w` of any integer, negative ones included, is its remainder modulo 2 to the `w` (R11). -/
theorem toNat_ofInt_eq_emod (w : Nat) (raw : Int) : ((BitVec.ofInt w raw).toNat : Int) = raw % (2 ^ w : Nat) := by
  rw [BitVec.toNat_ofInt, Int.toNat_of_nonneg (Int.emod_nonneg _ (by positivity))]

/-! ### A clear by name (R25) -/

theorem Regs.clear_eq_setRaw_zero (g : Regs) (r : RegName) : g.clear r = g.setRaw r 0 := by
  cases r <;> rfl

/-! ### The statements -/

/-- Settles O4: a write by name reads back as the masked value, and every other name reads as before. -/
theorem registerWriteMasksToWidth : Obligations.RegisterWriteMasksToWidth := by
  intro g r raw
  refine ⟨fun hr => ?_, fun hr => ?_, fun q hq => ⟨g.get24_setRaw_ne hq raw, g.get48_setRaw_ne hq raw⟩⟩
  · exact ⟨_, g.get24_setRaw_same hr raw, toNat_ofInt_eq_emod 24 raw⟩
  · subst hr
    exact ⟨_, g.get48_setRaw_f raw, toNat_ofInt_eq_emod 48 raw⟩

/-- Settles O5, by the split of the names into F and the eight that `narrow` maps to a 24-bit register. -/
theorem wrongWidthAccessorFails : Obligations.WrongWidthAccessorFails := by
  refine ⟨fun g r => ⟨fun hr => ?_, fun hr => ?_⟩, fun g => ⟨rfl, rfl, rfl, rfl, rfl, rfl, rfl, rfl⟩,
    fun n r hn => ⟨⟨fun he => ?_, fun hr => ?_⟩, fun hr => ?_⟩⟩
  · subst hr
    exact ⟨g.get24_f, g.get48_f, g.f.isLt⟩
  · obtain ⟨k, hk⟩ := exists_narrow_of_ne_f hr
    exact ⟨g.get48_of_narrow hk, k, hk, g.get24_of_narrow hk, (g.get k).isLt⟩
  · by_contra hr
    obtain ⟨k, hk⟩ := exists_narrow_of_ne_f hr
    simp [regop24_of_narrow hn hk] at he
  · subst hr
    exact regop24_of_f hn
  · obtain ⟨k, hk⟩ := exists_narrow_of_ne_f hr
    exact ⟨k, regop24_of_narrow hn hk, hk⟩

/-- Settles O6: a clear is a write of 0, and a masked 0 is 0 in either width. -/
theorem clearZeroesOneRegister : Obligations.ClearZeroesOneRegister := by
  intro g r
  rw [Regs.clear_eq_setRaw_zero]
  refine ⟨fun hr => g.get24_setRaw_same hr 0, fun hr => ?_,
    fun q hq => ⟨g.get24_setRaw_ne hq 0, g.get48_setRaw_ne hq 0⟩, rfl⟩
  subst hr
  exact g.get48_setRaw_f 0

end Sys2Proof.Machine
end

section
/-! PROOFS. The checked byte accesses after a write (spec/20_memory.md R52).  Writes go through the rules of `put`;
a checked read depends on nothing but the size and the byte at its own address. -/

namespace Sys2Proof.Machine

/-! ### A checked read -/

theorem Memory.readByte_congr {m m' : Memory} {a : Nat} (hsize : m'.size = m.size) (hget : m'.get a = m.get a) :
    m'.readByte a = m.readByte a := by
  simp only [Memory.readByte, Memory.InBounds, hsize, hget]

theorem Memory.readByte_put_same {m : Memory} (hm : m.wf = true) {a : Nat} (ha : a < m.size) (v : Byte) :
    (m.put a v).readByte a = .ok v := by
  rw [Memory.readByte_ok (m := m.put a v) ha, Memory.get_put_same hm]

/-- The frame of a byte write: in bounds or not, every other address reads as before. -/
theorem Memory.readByte_put_ne (m : Memory) {a b : Nat} (v : Byte) (h : b ≠ a) :
    (m.put a v).readByte b = m.readByte b :=
  Memory.readByte_congr (m.put_size a v) (m.get_put_ne v h)

/-! ### The statement -/

/-- Settles O9: in bounds, the memory a write answers is `put`, whose reads the lemmas above give. -/
theorem byteAccessReadsWhatWasWritten : Obligations.ByteAccessReadsWhatWasWritten := by
  intro m a v
  refine ⟨Memory.readByte_ok, fun hm ha => ?_, fun ha => ⟨Memory.readByte_error ha, Memory.writeByte_error v ha⟩⟩
  exact ⟨m.put a v, Memory.writeByte_ok v ha, m.put_size a v, Memory.readByte_put_same hm ha v,
    fun b hb => m.readByte_put_ne v hb⟩

end Sys2Proof.Machine
end

section
/-! PROOFS. The mode, the literal and the terms of the effective address (spec/30_encoding.md R92 to R100).  The
literal's value is arithmetic on the field; with p = 1 no term of the address depends on b or on register B. -/

namespace Sys2Proof.Machine

/-! ### The mode (R92) -/

theorem modeOf_eq_immediate_iff (o : Operand) : modeOf o = .immediate ↔ o.n = false ∧ o.i = true := by
  unfold modeOf; split <;> simp [*]

/-! ### The literal (R94, R95) -/

theorem dispOf_toNat (o : Operand) : (dispOf o).toNat = o.field.toNat % 4096 := BitVec.toNat_setWidth ..

theorem immediateOf_toNat_format4 {o : Operand} (he : o.e = true) : (immediateOf o).toNat = o.field.toNat := by
  rw [immediateOf, if_pos he, BitVec.toNat_setWidth_of_le (by decide)]

/-- A set disp[11] adds the twelve high bits that sign extension fills in (R94). -/
theorem immediateOf_toNat_format3 {o : Operand} (he : o.e = false) :
    (immediateOf o).toNat =
      if o.field.toNat % 4096 < 2048 then o.field.toNat % 4096 else 0xFFF000 + o.field.toNat % 4096 := by
  have himm : immediateOf o = (dispOf o).signExtend 24 := if_neg (by simp [he])
  have hwide : ((dispOf o).setWidth 24).toNat = o.field.toNat % 4096 := by
    rw [BitVec.toNat_setWidth_of_le (by decide), dispOf_toNat]
  have hmsb : (dispOf o).msb = decide (2048 ≤ o.field.toNat % 4096) := by
    rw [BitVec.msb_eq_decide, dispOf_toNat]
  rw [himm, BitVec.toNat_signExtend, hwide, hmsb]
  by_cases hd : o.field.toNat % 4096 < 2048
  · simp [hd]
  · simp [hd, Nat.le_of_not_lt hd, Nat.add_comm]

/-! ### The terms of the address (R97, R100) -/

theorem relativeTerm_pcRelative {o : Operand} (hp : o.p = true) (s : State) :
    relativeTerm o s = (postPc o s).toNat := if_pos hp

/-- The address is decided by the mode, the literal, the target address and memory. -/
theorem effectiveAddress_congr {o o' : Operand} {s s' : State} (hmode : modeOf o' = modeOf o)
    (himm : immediateOf o' = immediateOf o) (hta : targetAddress o' s' = targetAddress o s)
    (hmem : s'.mem = s.mem) : effectiveAddress o' s' = effectiveAddress o s := by
  simp only [effectiveAddress, hmode, himm, hta, hmem]

/-- The post-fetch PC and the index term read neither b nor B, and with p = 1 they are all the registers give. -/
theorem targetAddress_pcRelative_ignores_b {o : Operand} (hp : o.p = true) (s : State) (v : Word) (b : Bool) :
    targetAddress { o with b := b } { s with regs := { s.regs with b := v } } = targetAddress o s := by
  unfold targetAddress
  rw [relativeTerm_pcRelative (o := { o with b := b }) hp, relativeTerm_pcRelative hp]
  rfl

/-! ### The statements -/

/-- Settles O18: the mode is immediate, so EA is the literal in every state, and its value is one of the two above. -/
theorem immediateAddressIsTheLiteral : Obligations.ImmediateAddressIsTheLiteral := by
  intro o s hn hi
  have hmode : modeOf o = .immediate := (modeOf_eq_immediate_iff o).mpr ⟨hn, hi⟩
  refine ⟨immediateOf o, effectiveAddress_immediate hmode s, ?_, effectiveAddress_immediate hmode,
    operandWord_immediate hmode _⟩
  cases he : o.e
  · simpa using immediateOf_toNat_format3 he
  · simpa using immediateOf_toNat_format4 he

/-- Settles O21: mode, literal and memory do not contain b or B, and the target address ignores them. -/
theorem pcRelativeIgnoresB : Obligations.PcRelativeIgnoresB := by
  intro o s v b hp
  exact effectiveAddress_congr rfl rfl (targetAddress_pcRelative_ignores_b hp s v b) rfl

end Sys2Proof.Machine
end

section
/-! PROOFS. The 13 instructions with no executor (spec/40_cycle_dispatch.md R129).  Each is dispatched to the
unsupported form of its own format, and all three forms end in one phase-4 failure. -/

namespace Sys2Proof.Machine

/-- The unsupported form of an instruction's own format (R129). -/
def unsupportedForm (i : Instr) : State → Result :=
  match i.fields with
  | .operand o => unsupportedOperand (opcodeOf i) o
  | .regs _ _ => unsupportedRegs (opcodeOf i)
  | .none => unsupportedPlain (opcodeOf i)

/-- The split is the one of `unregistered`: its 13 constructors, and the 46 others it answers false for. -/
theorem exec_of_unregistered {i : Instr} (h : unregistered i = true) (s : State) :
    exec i s = unsupportedForm i s := by
  unfold unregistered at h
  split at h
  case h_14 => cases h
  all_goals rfl

/-- The statements add the size to the PC as an integer, the model adds it as a word (R123). -/
theorem nextPc_eq_add (i : Instr) (s : State) : nextPc i s = s.regs.pc + BitVec.ofNat 24 (sizeOfInstr i) := by
  rw [nextPc, BitVec.ofNat_add, BitVec.ofNat_toNat, BitVec.setWidth_eq]

/-- A failure raised after the PC advance is a failure of phase 4 (R125, R303). -/
theorem raise_advance_eq_failedInExecute (i : Instr) (s : State) (k : Failure) :
    (s.advance (sizeOfInstr i)).raise k s.regs.pc = failedInExecute i s k := by
  rw [failedInExecute, advanced, nextPc_eq_add]
  rfl

theorem unsupportedForm_fails {i : Instr} {s : State}
    (haddr : ∀ o, i.fields = .operand o → ∃ ea, effectiveAddress o s = .ok ea) :
    unsupportedForm i s = .next (failedInExecute i s (.unsupportedOpcode (opcodeOf i) (formatOf i))) := by
  rw [← raise_advance_eq_failedInExecute]
  unfold unsupportedForm sizeOfInstr formatOf
  cases hf : i.fields with
  | operand o =>
    obtain ⟨ea, hea⟩ := haddr o hf
    simp only [unsupportedOperand, runOperand_ok hea, finish_error]
  | regs => rfl
  | none => rfl

/-- Settles O58: dispatch reaches the unsupported form, which fails with the instruction's opcode and format. -/
theorem instructionsWithoutExecutorFail : Obligations.InstructionsWithoutExecutorFail := by
  intro i s hi haddr
  rw [exec_of_unregistered hi, unsupportedForm_fails haddr]

end Sys2Proof.Machine
end

section
/-! PROOFS. The machine's reset (spec/70_reset_and_hazards.md R330, R331). -/

namespace Sys2Proof.Machine

/-- Of the state it leaves, a reset keeps the size of the buffer and the draw counter, and nothing else
(R330, log 1 and 2). -/
theorem resetMachine_congr {s t : State} (hsize : s.mem.size = t.mem.size) (hdraws : s.draws = t.draws) :
    resetMachine s = resetMachine t := by
  simp only [resetMachine, Memory.cleared, hsize, hdraws]

/-- A reset keeps the two values that a second reset depends on (R331). -/
theorem resetMachine_idem (s : State) : resetMachine (resetMachine s) = resetMachine s :=
  resetMachine_congr (resetMachine_size s) (resetMachine_draws s)

/-- Settles O3: a second reset sees the buffer size and draw counter that the first one saw. -/
theorem resetIsIdempotent : Obligations.ResetIsIdempotent := by
  intro s
  exact ⟨resetMachine_idem s, rfl, rfl, rfl⟩

end Sys2Proof.Machine
end

section
/-! PROOFS. The opcode map (spec/30_encoding.md R85, R86, R108): the three tables of rows, read in both directions
once, and what keeps them apart. -/

namespace Sys2Proof

/-! ### Looking up a row -/

theorem mem_of_lookupRow {α : Type} {rows : List (Byte × α)} {op : Byte} {v : α}
    (h : lookupRow rows op = some v) : (op, v) ∈ rows := by
  induction rows with
  | nil => cases h
  | cons row rest ih =>
    obtain ⟨k, w⟩ := row
    simp only [lookupRow] at h
    split at h
    · next hk => cases h; exact hk ▸ List.mem_cons_self
    · exact List.mem_cons_of_mem _ (ih h)

theorem lookupRow_eq_none_iff {α : Type} (rows : List (Byte × α)) (op : Byte) :
    lookupRow rows op = none ↔ op ∉ rows.map Prod.fst := by
  induction rows with
  | nil => simp [lookupRow]
  | cons row rest ih =>
    obtain ⟨k, w⟩ := row
    by_cases hk : k = op
    · simp [lookupRow, hk]
    · simp [lookupRow, hk, ih, Ne.symm hk]

theorem exists_lookupRow_of_mem {α : Type} {rows : List (Byte × α)} {op : Byte} (h : op ∈ rows.map Prod.fst) :
    ∃ v, lookupRow rows op = some v :=
  Option.ne_none_iff_exists'.mp fun hnone => (lookupRow_eq_none_iff rows op).mp hnone h

/-! ### The tables of rows (R85, R108) -/

theorem format1Rows_sound : ∀ row ∈ format1Rows, row.2.fields = .none ∧ opcodeOf row.2 = row.1 := by
  decide

theorem format2Rows_sound : ∀ row ∈ format2Rows, ∀ r1 r2,
    (row.2 r1 r2).fields = .regs r1 r2 ∧ opcodeOf (row.2 r1 r2) = row.1 := by
  simp [format2Rows, Instr.fields, opcodeOf]

theorem format34Rows_sound : ∀ row ∈ format34Rows, ∀ o,
    (row.2 o).fields = .operand o ∧ opcodeOf (row.2 o) = row.1 := by
  simp [format34Rows, Instr.fields, opcodeOf]

theorem lookupRow_format1_opcodeOf {i : Instr} (h : i.fields = .none) :
    lookupRow format1Rows (opcodeOf i) = some i := by
  cases i <;> cases h <;> rfl

theorem lookupRow_format2_opcodeOf {i : Instr} {r1 r2 : BitVec 4} (h : i.fields = .regs r1 r2) :
    ∃ mk, lookupRow format2Rows (opcodeOf i) = some mk ∧ mk r1 r2 = i := by
  cases i <;> cases h <;> exact ⟨_, rfl, rfl⟩

theorem lookupRow_format34_opcodeOf {i : Instr} {o : Operand} (h : i.fields = .operand o) :
    ∃ mk, lookupRow format34Rows (opcodeOf i) = some mk ∧ mk o = i := by
  cases i <;> cases h <;> exact ⟨_, rfl, rfl⟩

theorem fields_of_lookupRow_format1 {b0 : Byte} {i : Instr} (h : lookupRow format1Rows b0 = some i) :
    i.fields = .none ∧ opcodeOf i = b0 :=
  format1Rows_sound _ (mem_of_lookupRow h)

theorem fields_of_lookupRow_format2 {b0 : Byte} {mk : BitVec 4 → BitVec 4 → Instr}
    (h : lookupRow format2Rows b0 = some mk) (r1 r2 : BitVec 4) :
    (mk r1 r2).fields = .regs r1 r2 ∧ opcodeOf (mk r1 r2) = b0 :=
  format2Rows_sound _ (mem_of_lookupRow h) r1 r2

theorem fields_of_lookupRow_format34 {op : Byte} {mk : Operand → Instr} (h : lookupRow format34Rows op = some mk)
    (o : Operand) : (mk o).fields = .operand o ∧ opcodeOf (mk o) = op :=
  format34Rows_sound _ (mem_of_lookupRow h) o

/-- Every opcode has its two low bits 0: that is where a format-3/4 instruction keeps n and i (R83, R89). -/
theorem opcodes_masked :
    (∀ op ∈ format1Rows.map Prod.fst, op &&& 0xFC#8 = op) ∧ (∀ op ∈ format2Rows.map Prod.fst, op &&& 0xFC#8 = op) ∧
    ∀ op ∈ format34Rows.map Prod.fst, op &&& 0xFC#8 = op := by
  decide

theorem opcodes_disjoint :
    (∀ op ∈ format1Rows.map Prod.fst, op ∉ format2Rows.map Prod.fst) ∧
    ∀ op ∈ format34Rows.map Prod.fst, op ∉ format1Rows.map Prod.fst ∧ op ∉ format2Rows.map Prod.fst := by
  decide

theorem lookupRow_format1_eq_none_of_format2 {op : Byte} {mk : BitVec 4 → BitVec 4 → Instr}
    (h : lookupRow format2Rows op = some mk) : lookupRow format1Rows op = none := by
  rw [lookupRow_eq_none_iff]
  exact fun h1 => opcodes_disjoint.1 op h1 (List.mem_map_of_mem (f := Prod.fst) (mem_of_lookupRow h))

/-- A b0 whose masked value is a format-3/4 opcode is in neither of the sets looked up before it (R86). -/
theorem lookupRow_eq_none_of_format34 {b0 op : Byte} {mk : Operand → Instr} (hb : b0 &&& 0xFC#8 = op)
    (h : lookupRow format34Rows op = some mk) :
    lookupRow format1Rows b0 = none ∧ lookupRow format2Rows b0 = none := by
  obtain ⟨hmask1, hmask2, -⟩ := opcodes_masked
  obtain ⟨hnot1, hnot2⟩ := opcodes_disjoint.2 op (List.mem_map_of_mem (f := Prod.fst) (mem_of_lookupRow h))
  rw [lookupRow_eq_none_iff, lookupRow_eq_none_iff]
  exact ⟨fun h1 => hnot1 (by rwa [← hb, hmask1 b0 h1]), fun h2 => hnot2 (by rwa [← hb, hmask2 b0 h2])⟩

end Sys2Proof
end

section
/-! PROOFS. The bits of a format-3/4 instruction (spec/30_encoding.md R83, R84, R89, R91): what the encoder puts into
b0, b1 and the value field is what the decoder takes out of them, and the other way round. -/

namespace Sys2Proof

/-! ### The bits of b0 and b1 (R83, R84, R89) -/

theorem getLsbD_mask (b : Byte) {j : Nat} (hj : j < 8) :
    (b &&& 0xFC#8).getLsbD j = (decide (2 ≤ j) && b.getLsbD j) := by
  rw [BitVec.getLsbD_and]
  interval_cases j <;> simp

theorem getLsbD_encodeB0 (op : Byte) (o : Operand) {j : Nat} (hj : j < 8) :
    (encodeB0 op o).getLsbD j = if j = 0 then o.i else if j = 1 then o.n else op.getLsbD j := by
  unfold encodeB0
  rw [BitVec.getLsbD_append, BitVec.getLsbD_append, BitVec.getLsbD_extractLsb']
  interval_cases j <;> simp

theorem getLsbD_encodeB1 (o : Operand) (top : BitVec 4) {j : Nat} (hj : j < 8) :
    (encodeB1 o top).getLsbD j =
      if j < 4 then top.getLsbD j
      else if j = 4 then o.e else if j = 5 then o.p else if j = 6 then o.b else o.x := by
  unfold encodeB1
  rw [BitVec.getLsbD_append, BitVec.getLsbD_append, BitVec.getLsbD_append, BitVec.getLsbD_append]
  interval_cases j <;> simp

theorem mask_encodeB0 {op : Byte} (h : op &&& 0xFC#8 = op) (o : Operand) : encodeB0 op o &&& 0xFC#8 = op := by
  rw [← h]
  refine BitVec.eq_of_getLsbD_eq fun j hj => ?_
  rw [getLsbD_mask _ hj, getLsbD_encodeB0 _ _ hj, getLsbD_mask _ hj]
  rcases j with _ | _ | j <;> simp

theorem encodeB0_operandOf (b0 b1 : Byte) (f : BitVec 20) : encodeB0 (b0 &&& 0xFC#8) (operandOf b0 b1 f) = b0 := by
  refine BitVec.eq_of_getLsbD_eq fun j hj => ?_
  rw [getLsbD_encodeB0 _ _ hj, getLsbD_mask _ hj]
  rcases j with _ | _ | j <;> simp [operandOf]

theorem encodeB1_operandOf (b0 b1 : Byte) (f : BitVec 20) : encodeB1 (operandOf b0 b1 f) (b1.setWidth 4) = b1 := by
  refine BitVec.eq_of_getLsbD_eq fun j hj => ?_
  rw [getLsbD_encodeB1 _ _ hj]
  interval_cases j <;> simp [operandOf]

theorem operandOf_encode (op : Byte) (o : Operand) (top : BitVec 4) (f : BitVec 20) :
    operandOf (encodeB0 op o) (encodeB1 o top) f = { o with field := f } := by
  rw [operandOf, getLsbD_encodeB0 _ _ (by decide), getLsbD_encodeB0 _ _ (by decide), getLsbD_encodeB1 _ _ (by decide),
    getLsbD_encodeB1 _ _ (by decide), getLsbD_encodeB1 _ _ (by decide), getLsbD_encodeB1 _ _ (by decide)]
  rfl

theorem setWidth_encodeB1 (o : Operand) (top : BitVec 4) : (encodeB1 o top).setWidth 4 = top := by
  refine BitVec.eq_of_getLsbD_eq fun j hj => ?_
  rw [BitVec.getLsbD_setWidth, getLsbD_encodeB1 _ _ (Nat.lt_of_lt_of_le hj (by decide)), if_pos hj]
  simp [hj]

/-! ### The value field (R91) -/

theorem toNat_append_eq {n m : Nat} (x : BitVec n) (y : BitVec m) : (x ++ y).toNat = x.toNat * 2 ^ m + y.toNat := by
  rw [BitVec.toNat_append, ← Nat.shiftLeft_add_eq_or_of_lt y.isLt, Nat.shiftLeft_eq]

theorem toNat_extract {n : Nat} (f : BitVec n) (lo k : Nat) :
    (f.extractLsb' lo k).toNat = f.toNat / 2 ^ lo % 2 ^ k := by
  rw [BitVec.extractLsb'_toNat, Nat.shiftRight_eq_div_pow]

theorem dispField_toNat (b1 b2 : Byte) : (dispField b1 b2).toNat = b1.toNat % 16 * 256 + b2.toNat := by
  rw [dispField, BitVec.toNat_setWidth_of_le (by decide), toNat_append_eq, BitVec.toNat_setWidth]
  rfl

theorem addrField_toNat (b1 b2 b3 : Byte) :
    (addrField b1 b2 b3).toNat = b1.toNat % 16 * 65536 + b2.toNat * 256 + b3.toNat := by
  rw [addrField, toNat_append_eq, toNat_append_eq, BitVec.toNat_setWidth]
  omega

theorem dispField_encode {f : BitVec 20} (hf : f.toNat < 4096) (o : Operand) :
    dispField (encodeB1 o (f.extractLsb' 8 4)) (f.extractLsb' 0 8) = f := by
  refine BitVec.eq_of_toNat_eq ?_
  rw [dispField, setWidth_encodeB1, BitVec.toNat_setWidth_of_le (by decide), toNat_append_eq, toNat_extract,
    toNat_extract]
  omega

theorem addrField_encode (f : BitVec 20) (o : Operand) :
    addrField (encodeB1 o (f.extractLsb' 16 4)) (f.extractLsb' 8 8) (f.extractLsb' 0 8) = f := by
  refine BitVec.eq_of_toNat_eq ?_
  rw [addrField, setWidth_encodeB1, toNat_append_eq, toNat_append_eq, toNat_extract, toNat_extract, toNat_extract]
  omega

theorem encodeOperand_of_e_clear {o : Operand} (h : o.e = false) (op : Byte) :
    encodeOperand op o =
      [encodeB0 op o, encodeB1 o (o.field.extractLsb' 8 4), o.field.extractLsb' 0 8] := by
  simp only [encodeOperand, h, Bool.false_eq_true, if_false]

theorem encodeOperand_of_e_set {o : Operand} (h : o.e = true) (op : Byte) :
    encodeOperand op o =
      [encodeB0 op o, encodeB1 o (o.field.extractLsb' 16 4), o.field.extractLsb' 8 8, o.field.extractLsb' 0 8] := by
  simp only [encodeOperand, h, if_true]

/-- The bytes of a format-3 instruction are the encoding of the operand read from them (R83). -/
theorem encodeOperand_dispField {b1 : Byte} (he : b1.getLsbD 4 = false) (b0 b2 : Byte) :
    encodeOperand (b0 &&& 0xFC#8) (operandOf b0 b1 (dispField b1 b2)) = [b0, b1, b2] := by
  have htop : (dispField b1 b2).extractLsb' 8 4 = b1.setWidth 4 := BitVec.eq_of_toNat_eq (by
    rw [toNat_extract, dispField_toNat, BitVec.toNat_setWidth]; omega)
  have hlow : (dispField b1 b2).extractLsb' 0 8 = b2 := BitVec.eq_of_toNat_eq (by
    rw [toNat_extract, dispField_toNat]; omega)
  have hfield : (operandOf b0 b1 (dispField b1 b2)).field = dispField b1 b2 := rfl
  rw [encodeOperand_of_e_clear he, encodeB0_operandOf, hfield, htop, hlow, encodeB1_operandOf]

/-- The bytes of a format-4 instruction are the encoding of the operand read from them (R84). -/
theorem encodeOperand_addrField {b1 : Byte} (he : b1.getLsbD 4 = true) (b0 b2 b3 : Byte) :
    encodeOperand (b0 &&& 0xFC#8) (operandOf b0 b1 (addrField b1 b2 b3)) = [b0, b1, b2, b3] := by
  have htop : (addrField b1 b2 b3).extractLsb' 16 4 = b1.setWidth 4 := BitVec.eq_of_toNat_eq (by
    rw [toNat_extract, addrField_toNat, BitVec.toNat_setWidth]; omega)
  have hmid : (addrField b1 b2 b3).extractLsb' 8 8 = b2 := BitVec.eq_of_toNat_eq (by
    rw [toNat_extract, addrField_toNat]; omega)
  have hlow : (addrField b1 b2 b3).extractLsb' 0 8 = b3 := BitVec.eq_of_toNat_eq (by
    rw [toNat_extract, addrField_toNat]; omega)
  have hfield : (operandOf b0 b1 (addrField b1 b2 b3)).field = addrField b1 b2 b3 := rfl
  rw [encodeOperand_of_e_set he, encodeB0_operandOf, hfield, htop, hmid, hlow, encodeB1_operandOf]

end Sys2Proof
end

section
/-! PROOFS. The decoder and the encoder (spec/30_encoding.md R80 to R91, R109): one equation for each format, the round
trips, the decoded fields and the rejections. -/

namespace Sys2Proof

/-! ### The decoder, by format (R86, R87) -/

/-- What a format-3/4 decode can answer: an instruction of the masked opcode's row, or the rejection by name. -/
theorem decode34_cases (b0 : Byte) (o : Operand) :
    (∃ i, decode34 b0 o = .instr i ∧ i.fields = .operand o ∧ opcodeOf i = b0 &&& 0xFC#8 ∧
      b0 &&& 0xFC#8 ∈ format34Rows.map Prod.fst) ∨
    (decode34 b0 o = .unregistered (b0 &&& 0xFC#8) o ∧ b0 &&& 0xFC#8 ∉ format34Rows.map Prod.fst) := by
  unfold decode34
  cases h : lookupRow format34Rows (b0 &&& 0xFC#8) with
  | none => exact .inr ⟨rfl, (lookupRow_eq_none_iff _ _).mp h⟩
  | some mk =>
    obtain ⟨hf, hop⟩ := fields_of_lookupRow_format34 h o
    exact .inl ⟨mk o, rfl, hf, hop, List.mem_map_of_mem (f := Prod.fst) (mem_of_lookupRow h)⟩

theorem fields_of_decode34 {b0 : Byte} {o : Operand} {i : Instr} (h : decode34 b0 o = .instr i) :
    i.fields = .operand o ∧ opcodeOf i = b0 &&& 0xFC#8 := by
  obtain ⟨j, hj, hf, hop, -⟩ | ⟨hu, -⟩ := decode34_cases b0 o
  · cases hj.symm.trans h; exact ⟨hf, hop⟩
  · cases hu.symm.trans h

theorem decode_format1 {b0 : Byte} {i : Instr} (h : lookupRow format1Rows b0 = some i) (rest : List Byte) :
    decode (b0 :: rest) = .instr i := by
  simp only [decode, h]

theorem decode_format2 {b0 : Byte} {mk : BitVec 4 → BitVec 4 → Instr} (h : lookupRow format2Rows b0 = some mk)
    (b1 : Byte) (rest : List Byte) :
    decode (b0 :: b1 :: rest) = .instr (mk (b1.extractLsb' 4 4) (b1.extractLsb' 0 4)) := by
  simp only [decode, lookupRow_format1_eq_none_of_format2 h, h]

theorem decode_format3 {b0 b1 : Byte} (h1 : lookupRow format1Rows b0 = none) (h2 : lookupRow format2Rows b0 = none)
    (he : b1.getLsbD 4 = false) (b2 : Byte) (rest : List Byte) :
    decode (b0 :: b1 :: b2 :: rest) = decode34 b0 (operandOf b0 b1 (dispField b1 b2)) := by
  simp only [decode, h1, h2, decodeRest34, he, Bool.false_eq_true, if_false]

theorem decode_format4 {b0 b1 : Byte} (h1 : lookupRow format1Rows b0 = none) (h2 : lookupRow format2Rows b0 = none)
    (he : b1.getLsbD 4 = true) (b2 b3 : Byte) (rest : List Byte) :
    decode (b0 :: b1 :: b2 :: b3 :: rest) = decode34 b0 (operandOf b0 b1 (addrField b1 b2 b3)) := by
  simp only [decode, h1, h2, decodeRest34, he, if_true]

theorem decodeRest34_eq_instr_inv {b0 : Byte} {rest : List Byte} {i : Instr}
    (h : decodeRest34 b0 rest = .instr i) :
    (∃ b1 b2 tail, rest = b1 :: b2 :: tail ∧ b1.getLsbD 4 = false ∧
      decode34 b0 (operandOf b0 b1 (dispField b1 b2)) = .instr i) ∨
    (∃ b1 b2 b3 tail, rest = b1 :: b2 :: b3 :: tail ∧ b1.getLsbD 4 = true ∧
      decode34 b0 (operandOf b0 b1 (addrField b1 b2 b3)) = .instr i) := by
  unfold decodeRest34 at h
  split at h
  · cases h
  · next b1 tail =>
    split at h
    · next he =>
      split at h
      · next b2 b3 tail => exact .inr ⟨b1, b2, b3, tail, rfl, he, h⟩
      · cases h
    · next he =>
      split at h
      · next b2 tail => exact .inl ⟨b1, b2, tail, rfl, Bool.eq_false_iff.mpr he, h⟩
      · cases h

/-- Four bytes hold every format-3/4 encoding. -/
theorem four_bytes_format34 {b0 : Byte} (h1 : lookupRow format1Rows b0 = none) (h2 : lookupRow format2Rows b0 = none)
    (b1 b2 b3 : Byte) (rest : List Byte) : ∃ o, decode (b0 :: b1 :: b2 :: b3 :: rest) = decode34 b0 o := by
  cases he : b1.getLsbD 4 with
  | false => exact ⟨_, decode_format3 h1 h2 he b2 (b3 :: rest)⟩
  | true => exact ⟨_, decode_format4 h1 h2 he b2 b3 rest⟩

/-- The bytes an instruction was decoded from, by format. -/
theorem decode_eq_instr_inv {bytes : List Byte} {i : Instr} (h : decode bytes = .instr i) :
    (∃ b0 rest, bytes = b0 :: rest ∧ lookupRow format1Rows b0 = some i) ∨
    (∃ b0 b1 rest mk, bytes = b0 :: b1 :: rest ∧ lookupRow format2Rows b0 = some mk ∧
      i = mk (b1.extractLsb' 4 4) (b1.extractLsb' 0 4)) ∨
    (∃ b0 b1 b2 rest, bytes = b0 :: b1 :: b2 :: rest ∧ b1.getLsbD 4 = false ∧
      decode34 b0 (operandOf b0 b1 (dispField b1 b2)) = .instr i) ∨
    (∃ b0 b1 b2 b3 rest, bytes = b0 :: b1 :: b2 :: b3 :: rest ∧ b1.getLsbD 4 = true ∧
      decode34 b0 (operandOf b0 b1 (addrField b1 b2 b3)) = .instr i) := by
  unfold decode at h
  split at h
  · cases h
  · next b0 rest =>
    split at h
    · next h1 => cases h; exact .inl ⟨b0, rest, rfl, h1⟩
    · split at h
      · next mk h2 =>
        split at h
        · next b1 rest => cases h; exact .inr (.inl ⟨b0, b1, rest, mk, rfl, h2, rfl⟩)
        · cases h
      · obtain ⟨b1, b2, tail, rfl, he, hd⟩ | ⟨b1, b2, b3, tail, rfl, he, hd⟩ := decodeRest34_eq_instr_inv h
        · exact .inr (.inr (.inl ⟨b0, b1, b2, tail, rfl, he, hd⟩))
        · exact .inr (.inr (.inr ⟨b0, b1, b2, b3, tail, rfl, he, hd⟩))

/-! ### The encoder, by format -/

theorem encode_of_none {i : Instr} (h : i.fields = .none) : encode i = [opcodeOf i] := by
  simp only [encode, h]

theorem encode_of_regs {i : Instr} {r1 r2 : BitVec 4} (h : i.fields = .regs r1 r2) :
    encode i = [opcodeOf i, r1 ++ r2] := by
  simp only [encode, h]

theorem encode_of_operand {i : Instr} {o : Operand} (h : i.fields = .operand o) :
    encode i = encodeOperand (opcodeOf i) o := by
  simp only [encode, h]

theorem wellFormed_of_operand {i : Instr} {o : Operand} (h : i.fields = .operand o) :
    i.wellFormed = o.wellFormed := by
  simp only [Instr.wellFormed, h]

theorem nibbles_append (r1 r2 : BitVec 4) :
    (r1 ++ r2 : Byte).extractLsb' 4 4 = r1 ∧ (r1 ++ r2 : Byte).extractLsb' 0 4 = r2 := by
  refine ⟨BitVec.eq_of_toNat_eq ?_, BitVec.eq_of_toNat_eq ?_⟩
  · rw [toNat_extract, toNat_append_eq]; omega
  · rw [toNat_extract, toNat_append_eq]; omega

theorem append_nibbles (b : Byte) : b.extractLsb' 4 4 ++ b.extractLsb' 0 4 = b := by
  refine BitVec.eq_of_toNat_eq ?_
  rw [toNat_append_eq, toNat_extract, toNat_extract]
  omega

/-! ### Round trips -/

/-- The decoder reads a well-formed operand from its encoding and keeps the masked opcode. -/
theorem decode_encodeOperand {op : Byte} {mk : Operand → Instr} (hrow : lookupRow format34Rows op = some mk)
    {o : Operand} (hwf : o.wellFormed = true) (rest : List Byte) :
    decode (encodeOperand op o ++ rest) = .instr (mk o) := by
  have hop : encodeB0 op o &&& 0xFC#8 = op :=
    mask_encodeB0 (opcodes_masked.2.2 op (List.mem_map_of_mem (f := Prod.fst) (mem_of_lookupRow hrow))) o
  obtain ⟨h1, h2⟩ := lookupRow_eq_none_of_format34 hop hrow
  have he : ∀ top, (encodeB1 o top).getLsbD 4 = o.e := fun top => getLsbD_encodeB1 o top (by decide)
  have hinstr : decode34 (encodeB0 op o) o = .instr (mk o) := by simp only [decode34, hop, hrow]
  cases hformat : o.e with
  | false =>
    have hfield : o.field.toNat < 4096 := by simpa [Operand.wellFormed, hformat] using hwf
    rw [encodeOperand_of_e_clear hformat]
    simp only [List.cons_append, List.nil_append]
    rw [decode_format3 h1 h2 ((he _).trans hformat), dispField_encode hfield, operandOf_encode]
    exact hinstr
  | true =>
    rw [encodeOperand_of_e_set hformat]
    simp only [List.cons_append, List.nil_append]
    rw [decode_format4 h1 h2 ((he _).trans hformat), addrField_encode, operandOf_encode]
    exact hinstr

/-- Settles O16, by the format of the instruction: its row is found again, and its fields are read back. -/
theorem decodeOfEncodeIsTheInstruction : Obligations.DecodeOfEncodeIsTheInstruction := by
  intro i rest hwf
  cases hf : i.fields with
  | none => rw [encode_of_none hf]; exact decode_format1 (lookupRow_format1_opcodeOf hf) rest
  | regs r1 r2 =>
    obtain ⟨mk, hrow, rfl⟩ := lookupRow_format2_opcodeOf hf
    obtain ⟨hr1, hr2⟩ := nibbles_append r1 r2
    rw [encode_of_regs hf]
    exact (decode_format2 hrow (r1 ++ r2) rest).trans (by rw [hr1, hr2])
  | operand o =>
    obtain ⟨mk, hrow, rfl⟩ := lookupRow_format34_opcodeOf hf
    rw [encode_of_operand hf]
    exact decode_encodeOperand hrow ((wellFormed_of_operand hf).symm.trans hwf) rest

/-- Settles O17, by the format the bytes were decoded as: each field is put back where it was read. -/
theorem encodeOfDecodeIsTheBytes : Obligations.EncodeOfDecodeIsTheBytes := by
  intro bytes i h
  obtain ⟨b0, rest, rfl, h1⟩ | ⟨b0, b1, rest, mk, rfl, h2, rfl⟩ | ⟨b0, b1, b2, rest, rfl, he, hd⟩ |
    ⟨b0, b1, b2, b3, rest, rfl, he, hd⟩ := decode_eq_instr_inv h
  · obtain ⟨hf, hop⟩ := fields_of_lookupRow_format1 h1
    exact ⟨by simp only [Instr.wellFormed, hf], rest, by simp [encode_of_none hf, hop]⟩
  · obtain ⟨hf, hop⟩ := fields_of_lookupRow_format2 h2 (b1.extractLsb' 4 4) (b1.extractLsb' 0 4)
    exact ⟨by simp only [Instr.wellFormed, hf], rest, by simp [encode_of_regs hf, hop, append_nibbles]⟩
  · obtain ⟨hf, hop⟩ := fields_of_decode34 hd
    have hfield : (dispField b1 b2).toNat < 4096 := by rw [dispField_toNat]; omega
    refine ⟨?_, rest, by simp [encode_of_operand hf, hop, encodeOperand_dispField he]⟩
    rw [wellFormed_of_operand hf]
    simp [Operand.wellFormed, operandOf, hfield]
  · obtain ⟨hf, hop⟩ := fields_of_decode34 hd
    refine ⟨?_, rest, by simp [encode_of_operand hf, hop, encodeOperand_addrField he]⟩
    rw [wellFormed_of_operand hf]
    simp [Operand.wellFormed, operandOf, he]

/-! ### Fields and rejections -/

theorem lookupRow_format1_eq_none_iff (b0 : Byte) :
    lookupRow format1Rows b0 = none ↔ b0 ∉ [0xC0, 0xC4, 0xC8, 0xF0, 0xF4, (0xF8 : Byte)] :=
  lookupRow_eq_none_iff format1Rows b0

theorem lookupRow_format2_eq_none_iff (b0 : Byte) :
    lookupRow format2Rows b0 = none ↔
      b0 ∉ [0x90, 0x94, 0x98, 0x9C, 0xA0, 0xA4, 0xA8, 0xAC, 0xB0, 0xB4, (0xB8 : Byte)] :=
  lookupRow_eq_none_iff format2Rows b0

/-- The encodings with no row, by b0: it is in neither whole-byte set and its masked value is no format-3/4 opcode. -/
theorem four_bytes_unregistered_iff (b0 b1 b2 b3 : Byte) (rest : List Byte) :
    (∃ op o, decode (b0 :: b1 :: b2 :: b3 :: rest) = .unregistered op o) ↔
      b0 ∉ format1Rows.map Prod.fst ∧ b0 ∉ format2Rows.map Prod.fst ∧ b0 &&& 0xFC#8 ∉ format34Rows.map Prod.fst := by
  rw [← lookupRow_eq_none_iff, ← lookupRow_eq_none_iff]
  cases h1 : lookupRow format1Rows b0 with
  | some i => simp [decode_format1 h1]
  | none =>
    cases h2 : lookupRow format2Rows b0 with
    | some mk => simp [decode_format2 h2]
    | none =>
      obtain ⟨o, ho⟩ := four_bytes_format34 h1 h2 b1 b2 b3 rest
      rw [ho]
      obtain ⟨i, hi, -, -, hmem⟩ | ⟨hu, hmem⟩ := decode34_cases b0 o
      · simp [hi, hmem]
      · simp [hu, hmem]

/-- R109 (b) and (c): what the three tables leave out, over the 256 values of b0. -/
theorem rowless_iff_unassigned_or_misread : ∀ b0 : Byte,
    (b0 ∉ format1Rows.map Prod.fst ∧ b0 ∉ format2Rows.map Prod.fst ∧ b0 &&& 0xFC#8 ∉ format34Rows.map Prod.fst) ↔
      (b0 ∈ [0x8C, 0x8D, 0x8E, 0x8F, 0xBC, 0xBD, 0xBE, 0xBF, 0xCC, 0xCD, 0xCE, 0xCF,
             0xE4, 0xE5, 0xE6, 0xE7, 0xFC, 0xFD, 0xFE, (0xFF : Byte)] ∨
       (b0 &&& 0x03#8 ≠ 0 ∧
        b0 &&& 0xFC#8 ∈ [0x90, 0x94, 0x98, 0x9C, 0xA0, 0xA4, 0xA8, 0xAC, 0xB0, 0xB4, 0xB8,
                         0xC0, 0xC4, 0xC8, 0xF0, 0xF4, (0xF8 : Byte)])) := by
  decide

theorem decode34_ne_truncated (b0 : Byte) (o : Operand) : decode34 b0 o ≠ .truncated := by
  obtain ⟨i, hi, -⟩ | ⟨hu, -⟩ := decode34_cases b0 o
  · simp [hi]
  · simp [hu]

theorem four_bytes_ne_truncated (b0 b1 b2 b3 : Byte) (rest : List Byte) :
    decode (b0 :: b1 :: b2 :: b3 :: rest) ≠ .truncated := by
  cases h1 : lookupRow format1Rows b0 with
  | some i => simp [decode_format1 h1]
  | none =>
    cases h2 : lookupRow format2Rows b0 with
    | some mk => simp [decode_format2 h2]
    | none =>
      obtain ⟨o, ho⟩ := four_bytes_format34 h1 h2 b1 b2 b3 rest
      exact ho ▸ decode34_ne_truncated b0 o

/-- Settles O15: the encodings with no row are those whose b0 the three tables leave out. -/
theorem unassignedOpcodesAreRejectedByName : Obligations.UnassignedOpcodesAreRejectedByName := by
  intro b0 b1 b2 b3 rest
  exact ⟨four_bytes_ne_truncated b0 b1 b2 b3 rest,
    (four_bytes_unregistered_iff b0 b1 b2 b3 rest).trans (rowless_iff_unassigned_or_misread b0)⟩

/-- Settles O14, by the set b0 is in and then by b1[4]. -/
theorem decoderReadsEveryField : Obligations.DecoderReadsEveryField := by
  intro b0 b1 b2 b3 rest
  have hread : ∀ bytes o, decode bytes = decode34 b0 o →
      (∃ i, decode bytes = .instr i ∧ i.fields = .operand o ∧ opcodeOf i = b0 &&& 0xFC#8) ∨
      decode bytes = .unregistered (b0 &&& 0xFC#8) o := by
    intro bytes o h
    obtain ⟨i, hi, hf, hop, -⟩ | ⟨hu, -⟩ := decode34_cases b0 o
    · exact .inl ⟨i, h.trans hi, hf, hop⟩
    · exact .inr (h.trans hu)
  refine ⟨fun h => ?_, fun h => ?_, fun h1 h2 he => ?_, fun h1 h2 he => ?_⟩
  · obtain ⟨i, hi⟩ := exists_lookupRow_of_mem (rows := format1Rows) h
    obtain ⟨hf, hop⟩ := fields_of_lookupRow_format1 hi
    exact ⟨i, decode_format1 hi rest, hop, hf⟩
  · obtain ⟨mk, hmk⟩ := exists_lookupRow_of_mem (rows := format2Rows) h
    obtain ⟨hf, hop⟩ := fields_of_lookupRow_format2 hmk (b1.extractLsb' 4 4) (b1.extractLsb' 0 4)
    refine ⟨_, _, _, decode_format2 hmk b1 rest, hop, hf, ?_, ?_⟩ <;> rw [toNat_extract] <;> omega
  · rw [← lookupRow_format1_eq_none_iff] at h1
    rw [← lookupRow_format2_eq_none_iff] at h2
    exact ⟨_, ⟨rfl, rfl, rfl, rfl, rfl, rfl⟩, dispField_toNat b1 b2, hread _ _ (decode_format3 h1 h2 he b2 rest)⟩
  · rw [← lookupRow_format1_eq_none_iff] at h1
    rw [← lookupRow_format2_eq_none_iff] at h2
    exact ⟨_, ⟨rfl, rfl, rfl, rfl, rfl, rfl⟩, addrField_toNat b1 b2 b3, hread _ _ (decode_format4 h1 h2 he b2 b3 rest)⟩

/-- Settles O13: each word is decoded by its b0's row and its own field bits. -/
theorem knownWordsDecode : Obligations.KnownWordsDecode := by
  unfold Obligations.KnownWordsDecode
  decide

end Sys2Proof
end

section
/-! PROOFS. One shape for all 59 meanings (spec/40_cycle_dispatch.md R121 to R126).  `exec` computes the address,
advances the PC, runs the executor of phase 4 and logs; `addressOf` and `executorOf` name the two parts that
differ, and `exec_cases` says once what any instruction can answer. -/

namespace Sys2Proof.Machine

/-- The effective address of phase 1, none for formats 1 and 2 (R105, R106). -/
def addressOf (i : Instr) (s : State) : Except Failure (Option Word) :=
  match i.fields with
  | .operand o => (effectiveAddress o s).map some
  | .regs _ _ | .none => .ok none

/-- The state at the start of phase 3: the PC advanced and nothing else (R123). -/
def afterAdvance (i : Instr) (s : State) : State := { s with regs := advanced i s }

/-- The executor of an instruction, given EA and the state after the PC advance (R124, R125); with none
registered, the failure of dispatch (R129). -/
def executorOf : Instr → Word → State → Except Failure State
  | .lda o => loadWord .a o
  | .ldx o => loadWord .x o
  | .ldl o => loadWord .l o
  | .ldb o => loadWord .b o
  | .lds o => loadWord .s o
  | .ldt o => loadWord .t o
  | .ldch o => loadByte o
  | .sta o => storeWord (opcodeOf (.sta o)) .a o
  | .stx o => storeWord (opcodeOf (.stx o)) .x o
  | .stl o => storeWord (opcodeOf (.stl o)) .l o
  | .stb o => storeWord (opcodeOf (.stb o)) .b o
  | .sts o => storeWord (opcodeOf (.sts o)) .s o
  | .stt o => storeWord (opcodeOf (.stt o)) .t o
  | .stch o => storeByte (opcodeOf (.stch o)) o
  | .add o => accumulate (fun a m => a + m) o
  | .sub o => accumulate (fun a m => a - m) o
  | .mul o => accumulate (fun a m => a * m) o
  | .and o => accumulate (fun a m => a &&& m) o
  | .or o => accumulate (fun a m => a ||| m) o
  | .div o => divideA o
  | .comp o => compareA o
  | .addf o => accumulateF (fun f m => f + m) (opcodeOf (.addf o)) o
  | .subf o => accumulateF (fun f m => f - m) (opcodeOf (.subf o)) o
  | .addr r1 r2 => fun _ => combineRegs (fun v2 v1 => .ok (v2 + v1)) r1 r2
  | .subr r1 r2 => fun _ => combineRegs (fun v2 v1 => .ok (v2 - v1)) r1 r2
  | .mulr r1 r2 => fun _ => combineRegs (fun v2 v1 => .ok (v2 * v1)) r1 r2
  | .divr r1 r2 => fun _ =>
    combineRegs (fun v2 v1 => if v1 = 0 then .error (.arithmeticError .divr) else .ok (quotient v2 v1)) r1 r2
  | .compr r1 r2 => fun _ => compareRegs r1 r2
  | .shiftl r1 r2 => fun _ => shiftReg rotateLeft r1 r2
  | .shiftr r1 r2 => fun _ => shiftReg shiftRight r1 r2
  | .clear r1 _ => fun _ => clearNumbered r1
  | .tixr r1 _ => fun _ => incrementCompare r1
  | .j _ => fun ea t => .ok (t.setReg .pc ea)
  | .jeq _ => jumpOnCode 0
  | .jlt _ => jumpOnCode 1
  | .jgt _ => jumpOnCode 2
  | .jsub _ => fun ea t => .ok ((t.setReg .l (t.reg .pc)).setReg .pc ea)
  | .rsub _ => fun _ t => .ok (returnToL t)
  | .svc _ _ => fun _ t => .ok t.signalHalt
  | .rd _ => fun _ t => .ok (readDevice t)
  | .td _ => fun _ t => .ok (testDevice t)
  | .lps _ | .ssk _ | .wd _ | .sio | .tio => fun _ t => .ok t
  | i => fun _ _ => .error (.unsupportedOpcode (opcodeOf i) (formatOf i))

/-- The run of an executor in an instruction's own format. -/
def runForm (i : Instr) (body : Word → State → Except Failure State) : State → Result :=
  match i.fields with
  | .operand o => runOperand (opcodeOf i) o body
  | .regs _ _ => runRegs (opcodeOf i) (body 0)
  | .none => runPlain (opcodeOf i) (body 0)

/-- Dispatch (R128): each meaning is the run of its executor in its own format. -/
theorem exec_eq_runForm (i : Instr) : exec i = runForm i (executorOf i) := by
  cases i <;> rfl

theorem advance_sizeOfInstr (i : Instr) (s : State) : s.advance (sizeOfInstr i) = afterAdvance i s := by
  rw [afterAdvance, advanced, nextPc_eq_add]
  rfl

theorem addressOf_operand {i : Instr} {o : Operand} (hf : i.fields = .operand o) (s : State) :
    addressOf i s = (effectiveAddress o s).map some := by
  simp only [addressOf, hf]

theorem addressOf_eq_error {i : Instr} {s : State} {k : Failure} (h : addressOf i s = .error k) :
    ∃ o, i.fields = .operand o ∧ effectiveAddress o s = .error k := by
  unfold addressOf at h
  split at h
  · next o hf =>
    refine ⟨o, hf, ?_⟩
    cases he : effectiveAddress o s with
    | error k' => rw [he] at h; cases h; rfl
    | ok ea => rw [he] at h; cases h
  · cases h
  · cases h

theorem exec_of_address_error {i : Instr} {s : State} {k : Failure} (h : addressOf i s = .error k) :
    exec i s = .next (failedInDecode s k) := by
  obtain ⟨o, hf, he⟩ := addressOf_eq_error h
  simp only [exec_eq_runForm, runForm, hf]
  exact runOperand_error he

theorem exec_of_address_ok {i : Instr} {s : State} {ea : Option Word} (h : addressOf i s = .ok ea) :
    exec i s = .next (finish (afterAdvance i s) (entryOf i ea s) (executorOf i (ea.getD 0) (afterAdvance i s))) := by
  rw [← advance_sizeOfInstr, exec_eq_runForm]
  unfold runForm sizeOfInstr entryOf formatOf
  unfold addressOf at h
  cases hf : i.fields with
  | operand o =>
    simp only [hf] at h ⊢
    cases he : effectiveAddress o s with
    | error k => rw [he] at h; cases h
    | ok a => rw [he] at h; cases h; exact runOperand_ok he
  | regs r1 r2 => simp only [hf] at h; cases h; rfl
  | none => simp only [hf] at h; cases h; rfl

theorem exec_completes {i : Instr} {s t : State} {ea : Option Word} (ha : addressOf i s = .ok ea)
    (hx : executorOf i (ea.getD 0) (afterAdvance i s) = .ok t) : exec i s = .next (t.log (entryOf i ea s)) := by
  rw [exec_of_address_ok ha, hx, finish_ok]

theorem exec_fails {i : Instr} {s : State} {ea : Option Word} {k : Failure} (ha : addressOf i s = .ok ea)
    (hx : executorOf i (ea.getD 0) (afterAdvance i s) = .error k) : exec i s = .next (failedInExecute i s k) := by
  rw [exec_of_address_ok ha, hx, finish_error]
  rfl

/-- Everything an instruction can answer (R122, R125, R126): a next state, by one of three ways. -/
theorem exec_cases (i : Instr) (s : State) :
    (∃ k, addressOf i s = .error k ∧ exec i s = .next (failedInDecode s k)) ∨
    (∃ ea k, addressOf i s = .ok ea ∧ executorOf i (ea.getD 0) (afterAdvance i s) = .error k ∧
      exec i s = .next (failedInExecute i s k)) ∨
    (∃ ea t, addressOf i s = .ok ea ∧ executorOf i (ea.getD 0) (afterAdvance i s) = .ok t ∧
      exec i s = .next (t.log (entryOf i ea s))) := by
  cases ha : addressOf i s with
  | error k => exact .inl ⟨k, rfl, exec_of_address_error ha⟩
  | ok ea =>
    cases hx : executorOf i (ea.getD 0) (afterAdvance i s) with
    | error k => exact .inr (.inl ⟨ea, k, rfl, hx, exec_fails ha hx⟩)
    | ok t => exact .inr (.inr ⟨ea, t, rfl, hx, exec_completes ha hx⟩)

/-- Settles O28: the address is computed before anything is changed. -/
theorem decodeFailureChangesOnlyTheFault : Obligations.DecodeFailureChangesOnlyTheFault := by
  intro i o s k hf he
  exact exec_of_address_error (by rw [addressOf_operand hf, he]; rfl)

end Sys2Proof.Machine
end

section
/-! PROOFS. What a completed executor leaves, said once for all 46 of them: registers, the halt flag, the draw
counter or memory, each within what the tables of R21, R38, R134 and R137 allow its instruction. -/

namespace Sys2Proof.Machine

/-! ### Registers -/

/-- `g'` differs from `g` only in the PC and in registers the instruction may write (R21). -/
structure RegFrame (i : Instr) (g g' : Regs) : Prop where
  get : ∀ r, r ≠ .pc → ¬ mayWrite i r → g'.get r = g.get r
  f : ¬ mayWriteF i → g'.f = g.f

theorem RegFrame.refl (i : Instr) (g : Regs) : RegFrame i g g := ⟨fun _ _ _ => rfl, fun _ => rfl⟩

theorem RegFrame.set {i : Instr} {g g' : Regs} (h : RegFrame i g g') {d : Reg24} (hd : d = .pc ∨ mayWrite i d)
    (v : Word) : RegFrame i g (g'.set d v) := by
  refine ⟨fun r hpc hr => ?_, fun hf => (Regs.set_f g' d v).trans (h.f hf)⟩
  have hne : r ≠ d := by
    rintro rfl
    exact hd.elim hpc hr
  rw [Regs.get_set_ne g' v hne, h.get r hpc hr]

theorem RegFrame.setF {i : Instr} {g g' : Regs} (h : RegFrame i g g') (hi : mayWriteF i) (v : FWord) :
    RegFrame i g { g' with f := v } :=
  ⟨fun r hpc hr => (Regs.get_with_f g' v r).trans (h.get r hpc hr), fun hf => absurd hi hf⟩

/-! ### Memory -/

/-- `m'` differs from `m` only in the `w` bytes at `a`; the size and the canonical form are kept (R58). -/
structure StoreFrame (a w : Nat) (m m' : Memory) : Prop where
  size : m'.size = m.size
  wf : m.wf = true → m'.wf = true
  get : ∀ b, b < a ∨ a + w ≤ b → m'.get b = m.get b

theorem StoreFrame.of_writeWord {m m' : Memory} {a : Nat} {v : Word} (h : m.writeWord a v = .ok m') :
    StoreFrame a 3 m m' := by
  refine ⟨?_, fun hm => Memory.writeWord_wf hm h, ?_⟩ <;> obtain ⟨-, -, rfl⟩ := Memory.writeWord_inv h
  · exact m.putWord_size a v
  · exact fun _ hb => m.get_putWord_ne v hb

theorem StoreFrame.of_writeByte {m m' : Memory} {a : Nat} {v : Byte} (h : m.writeByte a v = .ok m') :
    StoreFrame a 1 m m' := by
  refine ⟨?_, fun hm => Memory.writeByte_wf hm h, ?_⟩ <;> obtain ⟨-, rfl⟩ := Memory.writeByte_inv h
  · exact m.put_size a v
  · exact fun _ hb => m.get_put_ne v (by omega)

/-! ### The whole state -/

/-- The two ways to signal halt (R137), by the registers the executor reads. -/
def Halts (i : Instr) (g : Regs) : Prop := (∃ r1 r2, i = .svc r1 r2) ∨ ((∃ o, i = .rsub o) ∧ g.l = 0)

/-- What an executor that completes at `s` can leave.  A register change keeps SW a condition code (R30). -/
inductive Completes (i : Instr) (ea : Word) (s : State) : State → Prop
  | registers {g : Regs} (hg : RegFrame i s.regs g) (hsw : s.regs.sw.toNat ≤ 2 → g.sw.toNat ≤ 2) :
    Completes i ea s { s with regs := g }
  | halts {g : Regs} (hg : RegFrame i s.regs g) (hsw : s.regs.sw.toNat ≤ 2 → g.sw.toNat ≤ 2)
    (hi : Halts i s.regs) : Completes i ea s { s with regs := g, halted := true }
  | draws {g : Regs} (hg : RegFrame i s.regs g) (hsw : s.regs.sw.toNat ≤ 2 → g.sw.toNat ≤ 2)
    (hi : takesDraw i = true) : Completes i ea s { s with regs := g, draws := s.draws + 1 }
  | store {w : Nat} {m : Memory} (hi : storeWidth i = some w) (hm : StoreFrame ea.toNat w s.mem m) :
    Completes i ea s { s with mem := m }

namespace Completes

variable {i : Instr} {ea : Word} {s t : State}

theorem writeResult {d : Reg24} (hd : mayWrite i d) (hsw : mayWrite i .sw) (v : Word) :
    Completes i ea s (s.writeResult d v) :=
  .registers (((RegFrame.refl i s.regs).set (.inr hd) v).set (.inr hsw) _) fun _ => codeOfInt_le_two _

theorem writeResultF (hf : mayWriteF i) (hsw : mayWrite i .sw) (v : FWord) :
    Completes i ea s (s.writeResultF v) :=
  .registers (((RegFrame.refl i s.regs).setF hf v).set (.inr hsw) _) fun _ => codeOfInt_le_two _

theorem setCode (hsw : mayWrite i .sw) {c : Word} (hc : c.toNat ≤ 2) : Completes i ea s (s.setCode c) :=
  .registers ((RegFrame.refl i s.regs).set (.inr hsw) c) fun _ => hc

theorem setPc (v : Word) : Completes i ea s (s.setReg .pc v) :=
  .registers ((RegFrame.refl i s.regs).set (.inl rfl) v) id

theorem unchanged : Completes i ea s s := .registers (RegFrame.refl i s.regs) id

theorem of_accumulate {f : Word → Word → Word} {o : Operand} (ha : mayWrite i .a) (hsw : mayWrite i .sw)
    (h : accumulate f o ea s = .ok t) : Completes i ea s t := by
  obtain ⟨m, -, rfl⟩ := accumulate_inv h
  exact writeResult ha hsw _

theorem of_divideA {o : Operand} (ha : mayWrite i .a) (hsw : mayWrite i .sw) (h : divideA o ea s = .ok t) :
    Completes i ea s t := by
  obtain ⟨m, -, -, rfl⟩ := divideA_inv h
  exact writeResult ha hsw _

theorem of_accumulateF {f : FWord → FWord → FWord} {op : Byte} {o : Operand} (hf : mayWriteF i)
    (hsw : mayWrite i .sw) (h : accumulateF f op o ea s = .ok t) : Completes i ea s t := by
  obtain ⟨m, -, rfl⟩ := accumulateF_inv h
  exact writeResultF hf hsw _

theorem of_combineRegs {f : Word → Word → Except Failure Word} {r1 r2 : BitVec 4}
    (hd : ∀ d, regop24 r2 = .ok d → mayWrite i d) (hsw : mayWrite i .sw) (h : combineRegs f r1 r2 s = .ok t) :
    Completes i ea s t := by
  obtain ⟨src, dst, v, -, hdst, -, rfl⟩ := combineRegs_inv h
  exact writeResult (hd dst hdst) hsw v

theorem of_shiftReg {f : Word → Nat → Word} {r1 r2 : BitVec 4} (hd : ∀ d, regop24 r1 = .ok d → mayWrite i d)
    (hsw : mayWrite i .sw) (h : shiftReg f r1 r2 s = .ok t) : Completes i ea s t := by
  obtain ⟨d, hreg, rfl⟩ := shiftReg_inv h
  exact writeResult (hd d hreg) hsw _

theorem of_compareA {o : Operand} (hsw : mayWrite i .sw) (h : compareA o ea s = .ok t) : Completes i ea s t := by
  obtain ⟨m, -, rfl⟩ := compareA_inv h
  exact setCode hsw (compareCode_le_two _ _)

theorem of_compareRegs {r1 r2 : BitVec 4} (hsw : mayWrite i .sw) (h : compareRegs r1 r2 s = .ok t) :
    Completes i ea s t := by
  obtain ⟨p, q, -, -, rfl⟩ := compareRegs_inv h
  exact setCode hsw (compareCode_le_two _ _)

theorem of_incrementCompare {r1 : BitVec 4} (hx : mayWrite i .x) (hsw : mayWrite i .sw)
    (h : incrementCompare r1 s = .ok t) : Completes i ea s t := by
  obtain ⟨q, -, rfl⟩ := incrementCompare_inv h
  exact .registers (((RegFrame.refl i s.regs).set (.inr hx) _).set (.inr hsw) _) fun _ => compareCode_le_two _ _

theorem of_clearNumbered {r1 : BitVec 4} (hd : ∀ d, regop24 r1 = .ok d → mayWrite i d)
    (hf : regNumber r1 = some .f → mayWriteF i) (hsw : mayWrite i .sw) (h : clearNumbered r1 s = .ok t) :
    Completes i ea s t := by
  obtain ⟨r, hr, rfl⟩ := clearNumbered_inv h
  by_cases hrf : r = .f
  · subst hrf
    exact writeResultF (hf hr) hsw 0
  · obtain ⟨q, hq⟩ := exists_narrow_of_ne_f hrf
    have hclear : s.clearReg r = s.setReg q 0 := by simp only [State.clearReg, hq]
    rw [hclear]
    exact writeResult (hd q (regop24_of_narrow hr hq)) hsw 0

theorem of_loadWord {d : Reg24} {o : Operand} (hd : mayWrite i d) (hsw : mayWrite i .sw)
    (h : loadWord d o ea s = .ok t) : Completes i ea s t := by
  obtain ⟨m, -, rfl⟩ := loadWord_inv h
  exact writeResult hd hsw m

theorem of_loadByte {o : Operand} (ha : mayWrite i .a) (hsw : mayWrite i .sw) (h : loadByte o ea s = .ok t) :
    Completes i ea s t := by
  obtain ⟨c, -, rfl⟩ := loadByte_inv h
  exact writeResult ha hsw _

theorem of_storeWord {op : Byte} {r : Reg24} {o : Operand} (hi : storeWidth i = some 3)
    (h : storeWord op r o ea s = .ok t) : Completes i ea s t := by
  obtain ⟨m, hm, rfl⟩ := storeWord_inv h
  exact .store hi (.of_writeWord hm)

theorem of_storeByte {op : Byte} {o : Operand} (hi : storeWidth i = some 1) (h : storeByte op o ea s = .ok t) :
    Completes i ea s t := by
  obtain ⟨m, hm, rfl⟩ := storeByte_inv h
  exact .store hi (.of_writeByte hm)

theorem of_jumpOnCode {c : Word} (h : jumpOnCode c ea s = .ok t) : Completes i ea s t := by
  obtain ⟨-, rfl⟩ | ⟨-, rfl⟩ := jumpOnCode_inv h
  · exact setPc ea
  · exact unchanged

theorem of_returnToL (hi : ∃ o, i = .rsub o) : Completes i ea s (returnToL s) := by
  obtain ⟨hl, h⟩ | ⟨-, h⟩ := returnToL_cases s
  · rw [h]
    exact .halts ((RegFrame.refl i s.regs).set (.inl rfl) _) id (.inr ⟨hi, hl⟩)
  · rw [h]
    exact setPc _

theorem link (hl : mayWrite i .l) (v w : Word) : Completes i ea s ((s.setReg .l v).setReg .pc w) :=
  .registers (((RegFrame.refl i s.regs).set (.inr hl) v).set (.inl rfl) w) id

theorem of_readDevice (hi : takesDraw i = true) (ha : mayWrite i .a) : Completes i ea s (readDevice s) :=
  .draws ((RegFrame.refl i s.regs).set (.inr ha) _) id hi

theorem of_testDevice (hi : takesDraw i = true) (hsw : mayWrite i .sw) : Completes i ea s (testDevice s) :=
  .draws ((RegFrame.refl i s.regs).set (.inr hsw) _) (fun _ => testDevice_code_le_two s) hi

end Completes

/-- Every executor that completes leaves one of the states above, within its own row of the tables. -/
theorem completes_of_executorOf {i : Instr} {ea : Word} {s t : State} (h : executorOf i ea s = .ok t) :
    Completes i ea s t := by
  cases i
  case lda o | ldx o | ldl o | ldb o | lds o | ldt o => exact .of_loadWord (Or.inl rfl) (Or.inr rfl) h
  case ldch o => exact .of_loadByte (Or.inl rfl) (Or.inr rfl) h
  case sta o | stx o | stl o | stb o | sts o | stt o => exact .of_storeWord rfl h
  case stch o => exact .of_storeByte rfl h
  case add o | sub o | mul o | and o | or o => exact .of_accumulate (Or.inl rfl) (Or.inr rfl) h
  case div o => exact .of_divideA (Or.inl rfl) (Or.inr rfl) h
  case comp o => exact .of_compareA rfl h
  case addf o | subf o => exact .of_accumulateF trivial rfl h
  case addr r1 r2 | subr r1 r2 | mulr r1 r2 | divr r1 r2 =>
    rw [executorOf] at h
    exact .of_combineRegs (fun _ => Or.inl) (Or.inr rfl) h
  case compr r1 r2 => exact .of_compareRegs rfl h
  case shiftl r1 r2 | shiftr r1 r2 => exact .of_shiftReg (fun _ => Or.inl) (Or.inr rfl) h
  case clear r1 r2 => exact .of_clearNumbered (fun _ => Or.inl) id (Or.inr rfl) h
  case tixr r1 r2 => exact .of_incrementCompare (Or.inl rfl) (Or.inr rfl) h
  case jeq o | jlt o | jgt o => exact .of_jumpOnCode h
  case j o => cases h; exact .setPc ea
  case jsub o => cases h; exact .link (i := .jsub o) rfl _ _
  case rsub o => cases h; exact .of_returnToL ⟨o, rfl⟩
  case svc r1 r2 => cases h; exact .halts (RegFrame.refl _ _) id (.inl ⟨r1, r2, rfl⟩)
  case rd o => cases h; exact .of_readDevice rfl rfl
  case td o => cases h; exact .of_testDevice rfl rfl
  case lps o | ssk o | wd o => cases h; exact .unchanged
  case sio | tio => cases h; exact .unchanged
  all_goals cases h

/-! ### What every completion keeps -/

namespace Completes

variable {i : Instr} {ea : Word} {s t : State}

theorem fault_eq (h : Completes i ea s t) : t.fault = s.fault := by cases h <;> rfl

theorem history_eq (h : Completes i ea s t) : t.history = s.history := by cases h <;> rfl

theorem lastLog_eq (h : Completes i ea s t) : t.lastLog = s.lastLog := by cases h <;> rfl

theorem regFrame (h : Completes i ea s t) : RegFrame i s.regs t.regs := by
  cases h with
  | registers hg | halts hg | draws hg => exact hg
  | store => exact RegFrame.refl i s.regs

theorem code_le_two (h : Completes i ea s t) (hs : s.regs.sw.toNat ≤ 2) : t.regs.sw.toNat ≤ 2 := by
  cases h with
  | registers _ hsw | halts _ hsw | draws _ hsw => exact hsw hs
  | store => exact hs

theorem mem_eq (h : Completes i ea s t) (hi : storeWidth i = none) : t.mem = s.mem := by
  cases h with
  | registers | halts | draws => rfl
  | store hw => cases hi.symm.trans hw

theorem storeFrame (h : Completes i ea s t) {w : Nat} (hi : storeWidth i = some w) :
    StoreFrame ea.toNat w s.mem t.mem := by
  cases h with
  | registers | halts | draws => exact ⟨rfl, id, fun _ _ => rfl⟩
  | store hw hm => cases hi.symm.trans hw; exact hm

theorem mem_size (h : Completes i ea s t) : t.mem.size = s.mem.size := by
  cases h with
  | registers | halts | draws => rfl
  | store _ hm => exact hm.size

theorem mem_wf (h : Completes i ea s t) (hs : s.mem.wf = true) : t.mem.wf = true := by
  cases h with
  | registers | halts | draws => exact hs
  | store _ hm => exact hm.wf hs

theorem halted (h : Completes i ea s t) (ht : t.halted = true) : s.halted = true ∨ Halts i s.regs := by
  cases h with
  | registers | draws | store => exact .inl ht
  | halts _ _ hi => exact .inr hi

theorem draws_eq (h : Completes i ea s t) (hi : takesDraw i = false) : t.draws = s.draws := by
  cases h with
  | registers | halts | store => rfl
  | draws _ _ hd => cases hi.symm.trans hd

end Completes

end Sys2Proof.Machine
end

section
/-! PROOFS. Precise completion, the halt signal, and who may change memory and registers (spec/10_state.md R21, R38,
R66, spec/40_cycle_dispatch.md R126, R134 to R137). -/

namespace Sys2Proof.Machine

theorem addressOf_ok {i : Instr} {o : Operand} {s : State} {ea : Word} (hf : i.fields = .operand o)
    (hea : effectiveAddress o s = .ok ea) : addressOf i s = .ok (some ea) := by
  rw [addressOf_operand hf, hea]
  rfl

/-- Settles O29: the three ways of `exec_cases`, and a completion changes neither fault nor history but by its entry. -/
theorem everyInstructionCompletesOrFailsPrecisely : Obligations.EveryInstructionCompletesOrFailsPrecisely := by
  intro i s
  obtain ⟨k, -, he⟩ | ⟨ea, k, -, -, he⟩ | ⟨ea, t, -, hx, he⟩ := exec_cases i s
  · exact ⟨_, he, .inl ⟨k, rfl⟩⟩
  · exact ⟨_, he, .inr (.inl ⟨k, rfl⟩)⟩
  · have ht := completes_of_executorOf hx
    exact ⟨_, he, .inr (.inr ⟨ea, ht.fault_eq, congrArg (· ++ _) ht.history_eq, rfl⟩)⟩

/-! ### The halt signal (R137) -/

/-- Settles O57: SVC's executor is the halt signal and reads no field. -/
theorem svcHalts : Obligations.SvcHalts := by
  intro r1 r2 s
  exact ⟨rfl, exec_completes (i := .svc r1 r2) (ea := none) rfl rfl⟩

theorem returnToL_eq (s : State) :
    returnToL s = { s with regs := { s.regs with pc := s.regs.l }, halted := s.halted || decide (s.regs.l = 0) } := by
  obtain ⟨hl, h⟩ | ⟨hl, h⟩ := returnToL_cases s
  · rw [h, show decide (s.regs.l = 0) = true from decide_eq_true hl, Bool.or_true]; rfl
  · rw [h, show decide (s.regs.l = 0) = false from decide_eq_false hl, Bool.or_false]; rfl

/-- Settles O54: once EA is known, RSUB's executor is the return to L. -/
theorem rsubReturnsOrHalts : Obligations.RsubReturnsOrHalts := by
  intro o s ea hea
  refine ⟨rfl, ?_⟩
  have hx : executorOf (.rsub o) ea (afterAdvance (.rsub o) s) = .ok (returnToL (afterAdvance (.rsub o) s)) := rfl
  rw [exec_completes (addressOf_ok rfl hea) hx, returnToL_eq]
  rfl

/-- A machine that was not halted halts only by one of the two signals. -/
theorem halts_of_exec {i : Instr} {s t : State} (he : exec i s = .next t) (hs : s.halted = false)
    (ht : t.halted = true) :
    (∃ r1 r2, i = .svc r1 r2) ∨ (∃ o ea, i = .rsub o ∧ effectiveAddress o s = .ok ea ∧ s.regs.l = 0) := by
  obtain ⟨k, -, he'⟩ | ⟨ea, k, -, -, he'⟩ | ⟨ea, u, ha, hx, he'⟩ := exec_cases i s <;> cases he.symm.trans he'
  · exact absurd (hs.symm.trans ht) (by decide)
  · exact absurd (hs.symm.trans ht) (by decide)
  · obtain hs' | hsvc | ⟨⟨o, rfl⟩, hl⟩ := (completes_of_executorOf hx).halted ht
    · exact absurd (hs.symm.trans hs') (by decide)
    · exact .inl hsvc
    · cases hea : effectiveAddress o s with
      | ok a => exact .inr ⟨o, a, rfl, hea, hl⟩
      | error k => rw [addressOf_operand rfl, hea] at ha; cases ha

/-- Settles O30: only the two signals halt, and O57 and O54 give the states they leave. -/
theorem onlySvcAndRsubHalt : Obligations.OnlySvcAndRsubHalt := by
  intro i s t he hs
  refine ⟨⟨halts_of_exec he hs, ?_⟩, fun ht => ?_⟩
  · rintro (⟨r1, r2, rfl⟩ | ⟨o, ea, rfl, hea, hl⟩)
    · cases he.symm.trans (svcHalts r1 r2 s).2; rfl
    · cases he.symm.trans (rsubReturnsOrHalts o s ea hea).2; simp [hl]
  · obtain ⟨r1, r2, rfl⟩ | ⟨o, ea, rfl, hea, hl⟩ := halts_of_exec he hs ht
    · cases he.symm.trans (svcHalts r1 r2 s).2
      exact ⟨⟨none, rfl, rfl⟩, fun _ _ h => (by cases h; rfl), fun _ h => (by cases h)⟩
    · cases he.symm.trans (rsubReturnsOrHalts o s ea hea).2
      exact ⟨⟨some ea, rfl, rfl⟩, fun _ _ h => (by cases h), fun _ _ => hl⟩

/-! ### Registers (R21, R134) -/

theorem RegFrame.trans {i : Instr} {g g' g'' : Regs} (h : RegFrame i g g') (h' : RegFrame i g' g'') :
    RegFrame i g g'' :=
  ⟨fun r hpc hr => (h'.get r hpc hr).trans (h.get r hpc hr), fun hf => (h'.f hf).trans (h.f hf)⟩

theorem regFrame_advanced (i : Instr) (s : State) : RegFrame i s.regs (advanced i s) :=
  (RegFrame.refl i s.regs).set (.inl rfl) (nextPc i s)

theorem regFrame_exec {i : Instr} {s t : State} (he : exec i s = .next t) : RegFrame i s.regs t.regs := by
  obtain ⟨k, -, he'⟩ | ⟨ea, k, -, -, he'⟩ | ⟨ea, u, -, hx, he'⟩ := exec_cases i s <;> cases he.symm.trans he'
  · exact RegFrame.refl i s.regs
  · exact regFrame_advanced i s
  · exact (regFrame_advanced i s).trans (completes_of_executorOf hx).regFrame

/-- Settles O32: the PC advance and every completion keep the register frame. -/
theorem registersChangeOnlyAsListed : Obligations.RegistersChangeOnlyAsListed := by
  intro i s t he
  exact ⟨(regFrame_exec he).get, (regFrame_exec he).f⟩

/-! ### Memory (R38, R66) -/

/-- The parts of O31 about one instruction: a failure keeps memory, a completion keeps its frame. -/
theorem exec_memory {i : Instr} {s t : State} (he : exec i s = .next t) :
    t.mem.size = s.mem.size ∧ (storeWidth i = none → t.mem = s.mem) ∧
    ∀ o ea w, storeWidth i = some w → i.fields = .operand o → effectiveAddress o s = .ok ea →
      ∀ a, a < ea.toNat ∨ ea.toNat + w ≤ a → t.mem.get a = s.mem.get a := by
  obtain ⟨k, -, he'⟩ | ⟨ea, k, -, -, he'⟩ | ⟨ea, u, ha, hx, he'⟩ := exec_cases i s <;> cases he.symm.trans he'
  · exact ⟨rfl, fun _ => rfl, fun _ _ _ _ _ _ _ _ => rfl⟩
  · exact ⟨rfl, fun _ => rfl, fun _ _ _ _ _ _ _ _ => rfl⟩
  · have hu := completes_of_executorOf hx
    refine ⟨hu.mem_size, hu.mem_eq, fun o ea' w hw hf hea => ?_⟩
    cases ha.symm.trans (addressOf_ok hf hea)
    exact (hu.storeFrame hw).get

end Sys2Proof.Machine
end

section
/-! PROOFS. The step (spec/40_cycle_dispatch.md R120 to R127, R139): the state check, the fetch, and what the fetched
bytes decode to.  `step_cases` says once what any step can do; invariant, results and the host's loop follow. -/

namespace Sys2Proof.Machine

/-! ### The state check and the fetch -/

theorem step_of_not_running {s : State} (h : ¬ Running s) : step s = .next s := by
  unfold step cycle
  by_cases hf : s.fault.isSome
  · rw [if_pos hf]
  · have hh : s.halted = true := by
      by_contra hh
      exact h ⟨by simpa using hf, by simpa using hh⟩
    rw [if_neg hf, if_pos hh]

theorem step_of_running {s : State} (h : Running s) : step s = runningStep s := by
  obtain ⟨hf, hh⟩ := h
  simp [step, cycle, hf, hh]

theorem step_of_instr {s : State} {i : Instr} (h : Running s) (hd : decode (fetchWindow s) = .instr i) :
    step s = exec i s := by
  rw [step_of_running h, runningStep, hd]

theorem step_of_unregistered {s : State} {op : Byte} {o : Operand} (h : Running s)
    (hd : decode (fetchWindow s) = .unregistered op o) : step s = unsupportedOperand op o s := by
  rw [step_of_running h, runningStep, hd]

theorem step_of_truncated {s : State} (h : Running s) (hd : decode (fetchWindow s) = .truncated) :
    step s = .next (failedInDecode s (fetchFailure s)) := by
  rw [step_of_running h, runningStep, hd]
  rfl

theorem Memory.readFrom_inside {m : Memory} {a : Nat} (h : a < m.size) (n : Nat) :
    m.readFrom a (n + 1) = m.get a :: m.readFrom (a + 1) n := by
  rw [Memory.readFrom, Memory.readByte_ok h]

theorem Memory.readFrom_outside {m : Memory} {a : Nat} (h : m.size ≤ a) (n : Nat) : m.readFrom a n = [] := by
  cases n with
  | zero => rfl
  | succ n => rw [Memory.readFrom, Memory.readByte_error h]

/-- Bytes that lie in memory from `a` on are what a read from `a` begins with. -/
theorem Memory.exists_readFrom_eq_append {m : Memory} {bytes : List Byte} {a n : Nat} (hn : bytes.length ≤ n)
    (hfit : a + bytes.length ≤ m.size) (hget : ∀ (k : Nat) (h : k < bytes.length), m.get (a + k) = bytes[k]) :
    ∃ rest, m.readFrom a n = bytes ++ rest := by
  induction bytes generalizing a n with
  | nil => exact ⟨_, rfl⟩
  | cons b bytes ih =>
    simp only [List.length_cons] at hn hfit
    obtain ⟨n, rfl⟩ := Nat.exists_eq_add_of_lt (Nat.lt_of_lt_of_le (Nat.succ_pos _) hn)
    have hb : m.get a = b := hget 0 (Nat.succ_pos _)
    obtain ⟨rest, hrest⟩ := ih (a := a + 1) (n := n) (by omega) (by omega) fun k hk => by
      simpa [Nat.add_assoc, Nat.add_comm 1] using hget (k + 1) (Nat.succ_lt_succ hk)
    refine ⟨rest, ?_⟩
    rw [Nat.zero_add, Memory.readFrom_inside (by omega), hb, hrest, List.cons_append]

/-- Settles O22: a running step dispatches what it decoded, which O17 says is well formed. -/
theorem stepRunsTheDecodedInstruction : Obligations.StepRunsTheDecodedInstruction := by
  intro s i h hd
  exact ⟨step_of_instr h hd, (encodeOfDecodeIsTheBytes _ i hd).1⟩

theorem length_encode_le (i : Instr) : (encode i).length ≤ 4 := by
  unfold encode
  split
  · exact Nat.le_add_left 1 3
  · exact Nat.le_add_left 2 2
  · next o _ =>
    obtain ⟨hlength, -, hle⟩ := Laws.EncodeLength.operand_length (opcodeOf i) o
    exact hlength ▸ hle

/-- Settles O23: the fetch window begins with the encoding, which O16 decodes whatever follows. -/
theorem stepRunsTheEncodingAtThePc : Obligations.StepRunsTheEncodingAtThePc := by
  intro s i h hwf hfit hget
  obtain ⟨rest, hrest⟩ := Memory.exists_readFrom_eq_append (length_encode_le i) hfit hget
  refine step_of_instr h ?_
  rw [fetchWindow, State.reg_eq]
  exact hrest ▸ decodeOfEncodeIsTheInstruction i rest hwf

/-! ### A fetch that meets the end of memory (R88) -/

theorem decode_one_byte {b0 : Byte} (h1 : lookupRow format1Rows b0 = none) : decode [b0] = .truncated := by
  cases h2 : lookupRow format2Rows b0 <;> simp [decode, decodeRest34, h1, h2]

theorem decode_two_bytes {b0 : Byte} (h1 : lookupRow format1Rows b0 = none) (h2 : lookupRow format2Rows b0 = none)
    (b1 : Byte) : decode [b0, b1] = .truncated := by
  cases he : b1.getLsbD 4 <;> simp [decode, decodeRest34, h1, h2, he]

theorem decode_three_bytes {b0 b1 : Byte} (h1 : lookupRow format1Rows b0 = none)
    (h2 : lookupRow format2Rows b0 = none) (he : b1.getLsbD 4 = true) (b2 : Byte) :
    decode [b0, b1, b2] = .truncated := by
  simp [decode, decodeRest34, h1, h2, he]

/-- A fetch that ran out of bytes fails at the address after those it got. -/
theorem step_of_short_fetch {s : State} {bytes : List Byte} (h : Running s) (hw : fetchWindow s = bytes)
    (hd : decode bytes = .truncated) :
    step s = .next (failedInDecode s (.addressError (.memory (s.regs.pc.toNat + bytes.length)))) := by
  rw [step_of_truncated h (hw ▸ hd), fetchFailure, hw]
  rfl

/-- Settles O24, by the number of bytes between the PC and the end of memory. -/
theorem fetchPastTheEndFails : Obligations.FetchPastTheEndFails := by
  intro s h
  refine ⟨fun hend => ?_, fun hend h1 => ?_, fun hend h1 h2 => ?_, fun hend h1 h2 he => ?_⟩
  · exact step_of_short_fetch h (Memory.readFrom_outside hend 4) rfl
  · rw [← lookupRow_format1_eq_none_iff] at h1
    refine step_of_short_fetch h ?_ (decode_one_byte h1)
    rw [fetchWindow, State.reg_eq, Regs.get, Memory.readFrom_inside (by omega), Memory.readFrom_outside (by omega)]
  · rw [← lookupRow_format1_eq_none_iff] at h1
    rw [← lookupRow_format2_eq_none_iff] at h2
    refine step_of_short_fetch h ?_ (decode_two_bytes h1 h2 (s.mem.get (s.regs.pc.toNat + 1)))
    rw [fetchWindow, State.reg_eq, Regs.get, Memory.readFrom_inside (by omega), Memory.readFrom_inside (by omega),
      Memory.readFrom_outside (by omega)]
  · rw [← lookupRow_format1_eq_none_iff] at h1
    rw [← lookupRow_format2_eq_none_iff] at h2
    refine step_of_short_fetch h ?_ (decode_three_bytes h1 h2 he (s.mem.get (s.regs.pc.toNat + 1 + 1)))
    rw [fetchWindow, State.reg_eq, Regs.get, Memory.readFrom_inside (by omega), Memory.readFrom_inside (by omega),
      Memory.readFrom_inside (by omega), Memory.readFrom_outside (by omega)]

/-! ### An encoding with no row (R109) -/

theorem toNat_format_size (o : Operand) : o.format.size = if o.e then 4 else 3 := by
  cases h : o.e <;> simp [Operand.format, h, Format.size]

/-- The size is added to the PC as an integer, reduced mod 2^24 (R28, R123). -/
theorem add_ofNat_eq (v : Word) (n : Nat) : v + BitVec.ofNat 24 n = BitVec.ofNat 24 (v.toNat + n) := by
  rw [BitVec.ofNat_add, BitVec.ofNat_toNat, BitVec.setWidth_eq]

/-- Settles O25: the unsupported form computes the address first and fails after the PC advance. -/
theorem unassignedEncodingFailsAtDispatch : Obligations.UnassignedEncodingFailsAtDispatch := by
  intro s op o h hd
  rw [step_of_unregistered h hd]
  refine ⟨fun ea hea => ?_, fun k hk => runOperand_error hk⟩
  rw [unsupportedOperand, runOperand_ok hea, finish_error, ← toNat_format_size, ← add_ofNat_eq]
  rfl

/-! ### Everything a step can do -/

/-- A stopped step changes nothing; a running step fails, with at most its PC advanced, or it completes the
instruction that its fetch decoded (R120 to R127). -/
theorem step_cases (s : State) :
    (¬ Running s ∧ step s = .next s) ∨
    (Running s ∧ ∃ v k, step s = .next { s with
      regs := { s.regs with pc := v }, fault := some { kind := k, pcFetch := s.regs.pc } }) ∨
    (Running s ∧ ∃ i ea t, decode (fetchWindow s) = .instr i ∧ addressOf i s = .ok ea ∧
      Completes i (ea.getD 0) (afterAdvance i s) t ∧ step s = .next (t.log (entryOf i ea s))) := by
  by_cases h : Running s
  · refine .inr ?_
    cases hd : decode (fetchWindow s) with
    | instr i =>
      rw [step_of_instr h hd]
      obtain ⟨k, -, he⟩ | ⟨ea, k, -, -, he⟩ | ⟨ea, t, ha, hx, he⟩ := exec_cases i s
      · exact .inl ⟨h, s.regs.pc, k, he⟩
      · exact .inl ⟨h, nextPc i s, k, he⟩
      · exact .inr ⟨h, i, ea, t, rfl, ha, completes_of_executorOf hx, he⟩
    | unregistered op o =>
      rw [step_of_unregistered h hd, unsupportedOperand]
      cases hea : effectiveAddress o s with
      | error k => exact .inl ⟨h, s.regs.pc, k, runOperand_error hea⟩
      | ok ea => exact .inl ⟨h, _, _, runOperand_ok hea⟩
    | truncated => exact .inl ⟨h, s.regs.pc, _, step_of_truncated h hd⟩
  · exact .inl ⟨h, step_of_not_running h⟩

/-- Settles O31: `exec_memory`, and of the three things a step can do only a completion touches memory. -/
theorem onlyStoresWriteMemory : Obligations.OnlyStoresWriteMemory := by
  refine ⟨fun i s t he => exec_memory he, fun s t hstep hne => ?_⟩
  obtain ⟨-, hs⟩ | ⟨-, v, k, hs⟩ | ⟨-, i, ea, u, hd, -, hu, hs⟩ := step_cases s <;> cases hstep.symm.trans hs
  · exact absurd rfl hne
  · exact absurd rfl hne
  · cases hw : storeWidth i with
    | none => exact absurd (hu.mem_eq hw) hne
    | some w => exact ⟨i, w, hd, hw⟩

/-! ### The invariant -/

/-- Settles O33: the reset machine has no history and memory with no listed byte. -/
theorem invariantHoldsAtReset : Obligations.InvariantHoldsAtReset := by
  unfold Obligations.InvariantHoldsAtReset
  decide

/-- The entry of a completed instruction has an address exactly when its format does (R35, R105). -/
theorem entryOf_wf {i : Instr} {s : State} {ea : Option Word} (h : addressOf i s = .ok ea) :
    (entryOf i ea s).wf = true := by
  unfold TraceEntry.wf entryOf formatOf
  unfold addressOf at h
  cases hf : i.fields with
  | operand o =>
    simp only [hf] at h ⊢
    cases hea : effectiveAddress o s with
    | error k => rw [hea] at h; cases h
    | ok a => rw [hea] at h; cases h; cases he : o.e <;> simp [Operand.format, he]
  | regs r1 r2 => simp only [hf] at h ⊢; cases h; rfl
  | none => simp only [hf] at h ⊢; cases h; rfl

/-- Settles O34, by the three things a step can do. -/
theorem everyStepKeepsTheInvariant : Obligations.EveryStepKeepsTheInvariant := by
  intro s t hinv hstep
  obtain ⟨hsw, hwf, hsize, hlast, hentries, hstop⟩ := hinv
  obtain ⟨-, hs⟩ | ⟨⟨-, hrun⟩, v, k, hs⟩ | ⟨⟨hfault, -⟩, i, ea, u, -, ha, hu, hs⟩ := step_cases s <;>
    cases hstep.symm.trans hs
  · exact ⟨⟨hsw, hwf, hsize, hlast, hentries, hstop⟩, rfl⟩
  · exact ⟨⟨hsw, hwf, hsize, hlast, hentries, fun hh => absurd (hrun.symm.trans hh) (by decide)⟩, rfl⟩
  · have hhist : u.history = s.history := hu.history_eq
    have husize : u.mem.size = s.mem.size := hu.mem_size
    refine ⟨⟨hu.code_le_two hsw, hu.mem_wf hwf, ?_, ?_, ?_, fun _ => hu.fault_eq.trans hfault⟩, husize⟩
    · simpa [husize] using hsize
    · simp [hhist]
    · rw [State.log_history, hhist, List.all_append, hentries]
      simp [entryOf_wf ha]

/-! ### Results (R42) -/

/-- Settles O26: the step looks at `fault` before `halted`, and so does its result. -/
theorem stoppedStepChangesNothing : Obligations.StoppedStepChangesNothing := by
  intro s
  refine ⟨fun hf hh => ?_, fun r hf => ?_⟩
  · have hs : step s = .next s := step_of_not_running fun h => absurd (h.2.symm.trans hh) (by decide)
    exact ⟨hs, by simp [stepResult, hs, resultOf, hf, hh]⟩
  · have hs : step s = .next s := step_of_not_running fun h => by cases hf.symm.trans h.1
    exact ⟨hs, by simp [stepResult, hs, resultOf, hf]⟩

theorem stepResult_of_step {s t : State} (h : step s = .next t) : stepResult s = resultOf s t := by
  rw [stepResult, h]

/-- What a step did, as a result says it (R42, R126, R127, R301, R306). -/
def ResultTells (s t : State) : StepResult → Prop
  | .executed e => Running s ∧ t.history = s.history ++ [e] ∧ t.lastLog = some e ∧ t.fault = none
  | .noOp => s.halted = true ∧ s.fault = none ∧ t = s
  | .failed f =>
    t.fault = some f ∧ t.history = s.history ∧ t.lastLog = s.lastLog ∧ t.halted = s.halted ∧ t.mem = s.mem

theorem exists_resultTells (s : State) : ∃ t r, step s = .next t ∧ resultOf s t = some r ∧ ResultTells s t r := by
  obtain ⟨hstop, hs⟩ | ⟨-, v, k, hs⟩ | ⟨⟨hfault, hrun⟩, i, ea, u, -, -, hu, hs⟩ := step_cases s
  · cases hf : s.fault with
    | some f => exact ⟨s, .failed f, hs, by simp [resultOf, hf], hf, rfl, rfl, rfl, rfl⟩
    | none =>
      have hh : s.halted = true := by
        by_contra hh
        exact hstop ⟨hf, by simpa using hh⟩
      exact ⟨s, .noOp, hs, by simp [resultOf, hf, hh], hh, hf, rfl⟩
  · exact ⟨_, .failed ⟨k, s.regs.pc⟩, hs, rfl, rfl, rfl, rfl, rfl, rfl⟩
  · have hfu : u.fault = none := hu.fault_eq.trans hfault
    refine ⟨_, .executed (entryOf i ea s), hs, by simp [resultOf, hfu, hrun], ⟨hfault, hrun⟩, ?_, rfl, hfu⟩
    exact congrArg (· ++ [entryOf i ea s]) hu.history_eq

/-- Settles O27: the result of `exists_resultTells`, read kind by kind. -/
theorem everyStepReturnsOneResult : Obligations.EveryStepReturnsOneResult := by
  intro s
  obtain ⟨t, r, hs, hr, htells⟩ := exists_resultTells s
  refine ⟨t, r, hs, (stepResult_of_step hs).trans hr, ?_, ?_, ?_⟩
  · rintro e rfl
    exact htells
  · rintro rfl
    obtain ⟨hh, -, ht⟩ := htells
    exact ⟨hh, ht⟩
  · rintro f rfl
    exact htells

/-! ### The host's loop (R337) -/

theorem runUntilHalted_of_stops {s t : State} {r : StepResult} (hs : step s = .next t) (hr : resultOf s t = some r)
    (hstop : r.stops = true) (n : Nat) : runUntilHalted (n + 1) s = (t, some r) := by
  simp only [runUntilHalted, hs, hr, hstop, if_true]

theorem runUntilHalted_one {s t : State} {r : StepResult} (hs : step s = .next t) (hr : resultOf s t = some r) :
    runUntilHalted 1 s = (t, some r) := by
  cases hstop : r.stops <;> simp [runUntilHalted, hs, hr, hstop]

/-- An executed step that is not the last hands over to the rest of the loop, which has a result of its own. -/
theorem runUntilHalted_of_executed {s t u : State} {e : TraceEntry} {r : StepResult} {n : Nat}
    (hs : step s = .next t) (hr : resultOf s t = some (.executed e)) (hrest : runUntilHalted n t = (u, some r)) :
    runUntilHalted (n + 1) s = (u, some r) := by
  simp [runUntilHalted, hs, hr, StepResult.stops, hrest]

/-- The end of a loop of `n` steps from `s` at `t`, as its last result says it. -/
def LoopTells (n : Nat) (s t : State) : StepResult → Prop
  | .executed e => t.history.length = s.history.length + n ∧ t.lastLog = some e ∧ t.fault = none
  | .noOp => t.halted = true ∧ t.fault = none
  | .failed f => t.fault = some f

/-- By induction on the bound: the first step stops the loop, or it appends one entry and the rest tells the end. -/
theorem exists_loopTells (n : Nat) (s : State) :
    ∃ t r, runUntilHalted (n + 1) s = (t, some r) ∧ LoopTells (n + 1) s t r := by
  induction n generalizing s with
  | zero =>
    obtain ⟨t, r, hs, hr, htells⟩ := exists_resultTells s
    refine ⟨t, r, runUntilHalted_one hs hr, ?_⟩
    cases r with
    | executed e => obtain ⟨-, hhist, hlast, hfault⟩ := htells; exact ⟨by simp [hhist], hlast, hfault⟩
    | noOp => obtain ⟨hh, hf, rfl⟩ := htells; exact ⟨hh, hf⟩
    | failed f => exact htells.1
  | succ n ih =>
    obtain ⟨t, r, hs, hr, htells⟩ := exists_resultTells s
    cases r with
    | executed e =>
      obtain ⟨-, hhist, -, -⟩ := htells
      obtain ⟨u, r', hrest, hu⟩ := ih t
      refine ⟨u, r', runUntilHalted_of_executed hs hr hrest, ?_⟩
      cases r' with
      | executed e' =>
        obtain ⟨hlen, hlast, hfault⟩ := hu
        exact ⟨by simp [hlen, hhist]; omega, hlast, hfault⟩
      | noOp => exact hu
      | failed f => exact hu
    | noOp => obtain ⟨hh, hf, rfl⟩ := htells; exact ⟨_, _, runUntilHalted_of_stops hs hr rfl _, hh, hf⟩
    | failed f => exact ⟨_, _, runUntilHalted_of_stops hs hr rfl _, htells.1⟩

/-- Settles O8: the loop's equations for one step, and its end by induction on the bound. -/
theorem runUntilHaltedStopsWhereTheSpecSays : Obligations.RunUntilHaltedStopsWhereTheSpecSays := by
  intro n s hn
  obtain ⟨n, rfl⟩ := Nat.exists_eq_succ_of_ne_zero (Nat.pos_iff_ne_zero.mp hn)
  refine ⟨?_, ?_⟩
  · obtain ⟨t, r, hs, hr, -⟩ := exists_resultTells s
    refine ⟨t, r, hs, (stepResult_of_step hs).trans hr, ?_, ?_⟩
    · rintro (rfl | ⟨f, rfl⟩ | hone)
      · exact runUntilHalted_of_stops hs hr rfl n
      · exact runUntilHalted_of_stops hs hr rfl n
      · rw [hone]; exact runUntilHalted_one hs hr
    · rintro e rfl hne
      obtain ⟨m, rfl⟩ := Nat.exists_eq_succ_of_ne_zero (n := n) (by omega)
      obtain ⟨u, r', hrest, -⟩ := exists_loopTells m t
      exact (runUntilHalted_of_executed hs hr hrest).trans hrest.symm
  · obtain ⟨t, r, hrun, htells⟩ := exists_loopTells n s
    refine ⟨t, r, hrun, ?_, ?_, ?_⟩
    · rintro e rfl
      exact htells
    · rintro rfl
      exact htells
    · rintro f rfl
      exact htells

end Sys2Proof.Machine
end

section
/-! PROOFS. What no instruction reads (spec/10_state.md R35, R39, R44, decisions D23 and D34).  Every executor but
RD's and TD's commutes with replacing the history, `last_log` and the draw counter; so does the whole step. -/

namespace Sys2Proof.Machine

/-- The state with another history, `last_log` and draw counter: what executors do not read. -/
def State.withUnread (s : State) (h : List TraceEntry) (l : Option TraceEntry) (d : Nat) : State :=
  { s with history := h, lastLog := l, draws := d }

@[simp] theorem State.withUnread_regs (s : State) (h : List TraceEntry) (l : Option TraceEntry) (d : Nat) :
    (s.withUnread h l d).regs = s.regs := rfl

@[simp] theorem State.withUnread_mem (s : State) (h : List TraceEntry) (l : Option TraceEntry) (d : Nat) :
    (s.withUnread h l d).mem = s.mem := rfl

/-- An executor body that neither reads nor writes the unread fields. -/
def IgnoresUnread (body : State → Except Failure State) : Prop :=
  ∀ s h l d, body (s.withUnread h l d) = (body s).map (·.withUnread h l d)

namespace IgnoresUnread

theorem of_accumulate (f : Word → Word → Word) (o : Operand) (ea : Word) : IgnoresUnread (accumulate f o ea) := by
  intro s h l d
  simp only [accumulate, State.withUnread_mem]
  cases operandWord o ea s.mem <;> rfl

theorem of_divideA (o : Operand) (ea : Word) : IgnoresUnread (divideA o ea) := by
  intro s h l d
  simp only [divideA, State.withUnread_mem]
  cases operandWord o ea s.mem with
  | error k => rfl
  | ok m => by_cases hm : m = 0 <;> simp only [hm, if_true, if_false] <;> rfl

theorem of_accumulateF (f : FWord → FWord → FWord) (op : Byte) (o : Operand) (ea : Word) :
    IgnoresUnread (accumulateF f op o ea) := by
  intro s h l d
  simp only [accumulateF, State.withUnread_mem]
  cases operandF op o ea s.mem <;> rfl

theorem of_compareA (o : Operand) (ea : Word) : IgnoresUnread (compareA o ea) := by
  intro s h l d
  simp only [compareA, State.withUnread_mem]
  cases operandWord o ea s.mem <;> rfl

theorem of_combineRegs (f : Word → Word → Except Failure Word) (r1 r2 : BitVec 4) :
    IgnoresUnread (combineRegs f r1 r2) := by
  intro s h l d
  simp only [combineRegs, State.reg_eq, State.withUnread_regs]
  cases regop24 r1 with
  | error k => rfl
  | ok src =>
    cases regop24 r2 with
    | error k => rfl
    | ok dst =>
      dsimp only
      cases f (s.regs.get dst) (s.regs.get src) <;> rfl

theorem of_compareRegs (r1 r2 : BitVec 4) : IgnoresUnread (compareRegs r1 r2) := by
  intro s h l d
  unfold compareRegs
  cases regop24 r1 with
  | error k => rfl
  | ok p => cases regop24 r2 <;> rfl

theorem of_shiftReg (f : Word → Nat → Word) (r1 r2 : BitVec 4) : IgnoresUnread (shiftReg f r1 r2) := by
  intro s h l d
  unfold shiftReg
  cases regop24 r1 <;> rfl

theorem of_incrementCompare (r1 : BitVec 4) : IgnoresUnread (incrementCompare r1) := by
  intro s h l d
  unfold incrementCompare
  cases regop24 r1 <;> rfl

theorem of_clearNumbered (r1 : BitVec 4) : IgnoresUnread (clearNumbered r1) := by
  intro s h l d
  unfold clearNumbered
  cases regNumber r1 with
  | none => rfl
  | some r => cases r <;> rfl

theorem of_loadWord (r : Reg24) (o : Operand) (ea : Word) : IgnoresUnread (loadWord r o ea) := by
  intro s h l d
  simp only [loadWord, State.withUnread_mem]
  cases operandWord o ea s.mem <;> rfl

theorem of_loadByte (o : Operand) (ea : Word) : IgnoresUnread (loadByte o ea) := by
  intro s h l d
  simp only [loadByte, State.withUnread_mem]
  cases operandByte o ea s.mem <;> rfl

theorem of_storeWord (op : Byte) (r : Reg24) (o : Operand) (ea : Word) : IgnoresUnread (storeWord op r o ea) := by
  intro s h l d
  simp only [storeWord, State.reg_eq, State.withUnread_regs, State.withUnread_mem]
  cases refuseImmediate op o with
  | error k => rfl
  | ok u => cases s.mem.writeWord ea.toNat (s.regs.get r) <;> rfl

theorem of_storeByte (op : Byte) (o : Operand) (ea : Word) : IgnoresUnread (storeByte op o ea) := by
  intro s h l d
  simp only [storeByte, State.reg_eq, State.withUnread_regs, State.withUnread_mem]
  cases refuseImmediate op o with
  | error k => rfl
  | ok u => cases s.mem.writeByte ea.toNat ((s.regs.get .a).extractLsb' 0 8) <;> rfl

theorem of_jumpOnCode (c ea : Word) : IgnoresUnread (jumpOnCode c ea) := by
  intro s h l d
  simp only [jumpOnCode, State.reg_eq, State.withUnread_regs]
  by_cases hc : s.regs.get .sw = c <;> simp only [hc, if_true, if_false] <;> rfl

theorem of_returnToL : IgnoresUnread fun s => .ok (returnToL s) := by
  intro s h l d
  simp only [returnToL_eq]
  rfl

end IgnoresUnread

/-- Every executor that takes no draw ignores the unread fields. -/
theorem ignoresUnread_executorOf {i : Instr} (hi : takesDraw i = false) (ea : Word) :
    IgnoresUnread (executorOf i ea) := by
  cases i
  case lda o | ldx o | ldl o | ldb o | lds o | ldt o => exact .of_loadWord _ o ea
  case ldch o => exact .of_loadByte o ea
  case sta o | stx o | stl o | stb o | sts o | stt o => exact .of_storeWord _ _ o ea
  case stch o => exact .of_storeByte _ o ea
  case add o | sub o | mul o | and o | or o => exact .of_accumulate _ o ea
  case div o => exact .of_divideA o ea
  case comp o => exact .of_compareA o ea
  case addf o | subf o => exact .of_accumulateF _ _ o ea
  case addr r1 r2 | subr r1 r2 | mulr r1 r2 | divr r1 r2 =>
    rw [executorOf]
    exact .of_combineRegs _ r1 r2
  case compr r1 r2 => exact .of_compareRegs r1 r2
  case shiftl r1 r2 | shiftr r1 r2 => exact .of_shiftReg _ r1 r2
  case clear r1 r2 => exact .of_clearNumbered r1
  case tixr r1 r2 => exact .of_incrementCompare r1
  case jeq o | jlt o | jgt o => exact .of_jumpOnCode _ ea
  case rsub o => exact .of_returnToL
  case rd o | td o => cases hi
  all_goals exact fun _ _ _ _ => rfl

/-- RD and TD read the draw counter; no executor reads the history or `last_log`. -/
theorem executorOf_withUnread_same_draws (i : Instr) (ea : Word) (s : State) (h : List TraceEntry)
    (l : Option TraceEntry) :
    executorOf i ea (s.withUnread h l s.draws) = (executorOf i ea s).map fun t => t.withUnread h l t.draws := by
  cases hi : takesDraw i with
  | false =>
    rw [ignoresUnread_executorOf hi]
    cases hx : executorOf i ea s with
    | error k => rfl
    | ok t => rw [← (completes_of_executorOf hx).draws_eq hi]; rfl
  | true =>
    cases i
    case rd o | td o => rfl
    all_goals cases hi

/-! ### The whole instruction -/

/-- Replacing the history and `last_log` before an instruction replaces them after it, and nothing else. -/
theorem exec_withUnread_same_draws {i : Instr} {s t : State} (he : exec i s = .next t) (h : List TraceEntry)
    (l : Option TraceEntry) :
    ∃ h' l', exec i (s.withUnread h l s.draws) = .next (t.withUnread h' l' t.draws) := by
  have hx' : ∀ ea, executorOf i ea (afterAdvance i (s.withUnread h l s.draws)) =
      (executorOf i ea (afterAdvance i s)).map fun t => t.withUnread h l t.draws :=
    fun ea => executorOf_withUnread_same_draws i ea (afterAdvance i s) h l
  obtain ⟨k, ha, he'⟩ | ⟨ea, k, ha, hx, he'⟩ | ⟨ea, u, ha, hx, he'⟩ := exec_cases i s <;> cases he.symm.trans he'
  · exact ⟨h, l, exec_of_address_error (s := s.withUnread h l s.draws) ha⟩
  · exact ⟨h, l, exec_fails (s := s.withUnread h l s.draws) ha (by rw [hx', hx]; rfl)⟩
  · have hu : executorOf i (ea.getD 0) (afterAdvance i (s.withUnread h l s.draws)) =
        .ok (u.withUnread h l u.draws) := by
      rw [hx', hx]; rfl
    exact ⟨h ++ [entryOf i ea s], some (entryOf i ea s), exec_completes (s := s.withUnread h l s.draws) ha hu⟩

/-- Settles O36: the executor takes no draw, so another counter goes through it and through the log unread. -/
theorem onlyRdAndTdTakeDraws : Obligations.OnlyRdAndTdTakeDraws := by
  intro i s t d hi he
  have hx' : ∀ ea, executorOf i ea (afterAdvance i { s with draws := d }) =
      (executorOf i ea (afterAdvance i s)).map (·.withUnread s.history s.lastLog d) :=
    fun ea => ignoresUnread_executorOf hi ea (afterAdvance i s) s.history s.lastLog d
  obtain ⟨k, ha, he'⟩ | ⟨ea, k, ha, hx, he'⟩ | ⟨ea, u, ha, hx, he'⟩ := exec_cases i s <;> cases he.symm.trans he'
  · exact ⟨rfl, exec_of_address_error (s := { s with draws := d }) ha⟩
  · exact ⟨rfl, exec_fails (s := { s with draws := d }) ha (by rw [hx', hx]; rfl)⟩
  · have hcomp := completes_of_executorOf hx
    have hhist : u.history = s.history := hcomp.history_eq
    have hlast : u.lastLog = s.lastLog := hcomp.lastLog_eq
    have hu : executorOf i (ea.getD 0) (afterAdvance i { s with draws := d }) = .ok { u with draws := d } := by
      rw [hx', hx, ← hhist, ← hlast]; rfl
    exact ⟨hcomp.draws_eq hi, exec_completes (s := { s with draws := d }) ha hu⟩

/-! ### The whole step -/

/-- A failing step does not read the history either: its state check, fetch and address do not. -/
theorem step_withUnread_same_draws {s t : State} (hs : step s = .next t) (h : List TraceEntry)
    (l : Option TraceEntry) :
    ∃ h' l', step (s.withUnread h l s.draws) = .next (t.withUnread h' l' t.draws) := by
  by_cases hrun : Running s
  · cases hd : decode (fetchWindow s) with
    | instr i =>
      have he : exec i s = .next t := (step_of_instr hrun hd).symm.trans hs
      rw [step_of_instr (s := s.withUnread h l s.draws) hrun hd]
      exact exec_withUnread_same_draws he h l
    | unregistered op o =>
      rw [step_of_unregistered hrun hd, unsupportedOperand] at hs
      rw [step_of_unregistered (s := s.withUnread h l s.draws) hrun hd, unsupportedOperand]
      cases hea : effectiveAddress o s with
      | error k =>
        cases hs.symm.trans (runOperand_error hea)
        exact ⟨h, l, runOperand_error (s := s.withUnread h l s.draws) hea⟩
      | ok ea =>
        cases hs.symm.trans (runOperand_ok hea)
        exact ⟨h, l, runOperand_ok (s := s.withUnread h l s.draws) hea⟩
    | truncated =>
      cases hs.symm.trans (step_of_truncated hrun hd)
      exact ⟨h, l, step_of_truncated (s := s.withUnread h l s.draws) hrun hd⟩
  · cases hs.symm.trans (step_of_not_running hrun)
    exact ⟨h, l, step_of_not_running (s := s.withUnread h l s.draws) hrun⟩

/-- Settles O35: the other run ends in the same state but for the history and `last_log`. -/
theorem historyIsNotObservable : Obligations.HistoryIsNotObservable := by
  intro s t h l hs
  obtain ⟨h', l', hs'⟩ := step_withUnread_same_draws hs h l
  exact ⟨_, hs', rfl, rfl, rfl, rfl, rfl⟩

end Sys2Proof.Machine
end

section
/-! PROOFS. The instructions that take OperandWord, OperandByte or the 48-bit operand, or only the address
(spec/41_arithmetic.md, 42_logic_compare.md, 43_load.md, 45_control_transfer.md, 46_system.md).  Each shape of claim
is proved once from an equation of the executor; an instruction then owes its equation. -/

namespace Sys2Proof.Machine

/-! ### The operands, when they can be had and when not (R131, R132, R305) -/

theorem operandWord_of_ready {o : Operand} {ea : Word} {m : Memory} (h : WordReady o ea m) :
    operandWord o ea m = .ok (wordValue o ea m) := by
  by_cases hi : modeOf o = .immediate
  · rw [operandWord_immediate hi, wordValue, if_pos hi]
  · obtain ⟨ha, hb⟩ := h.resolve_left hi
    rw [operandWord_memory hi, wordValue, if_neg hi, Memory.readWord_ok ha hb]

theorem operandWord_misaligned {o : Operand} {ea : Word} (hi : modeOf o ≠ .immediate) (ha : ¬ Aligned ea)
    (m : Memory) : operandWord o ea m = .error (.alignmentError ea.toNat) := by
  rw [operandWord_memory hi, Memory.readWord_misaligned ha]

theorem operandWord_outside {o : Operand} {ea : Word} {m : Memory} (hi : modeOf o ≠ .immediate) (ha : Aligned ea)
    (hb : ¬ Fits m ea 3) : operandWord o ea m = .error (.addressError (.memory ea.toNat)) := by
  rw [operandWord_memory hi, Memory.readWord_outside ha hb]

theorem operandByte_of_ready {o : Operand} {ea : Word} {m : Memory} (h : ByteReady o ea m) :
    operandByte o ea m = .ok (byteValue o ea m) := by
  by_cases hi : modeOf o = .immediate
  · rw [operandByte_immediate hi, byteValue, if_pos hi, BitVec.setWidth_eq_extractLsb' (by decide)]
  · rw [operandByte_memory hi, byteValue, if_neg hi, Memory.readByte_ok (h.resolve_left hi)]

theorem operandByte_outside {o : Operand} {ea : Word} {m : Memory} (hi : modeOf o ≠ .immediate)
    (hb : ¬ Fits m ea 1) : operandByte o ea m = .error (.addressError (.memory ea.toNat)) := by
  rw [operandByte_memory hi, Memory.readByte_error (by omega)]

theorem operandF_immediate {o : Operand} (hi : modeOf o = .immediate) (op : Byte) (ea : Word) (m : Memory) :
    operandF op o ea m = .error (.illegalAddressingMode op) := by
  simp only [operandF, refuseImmediate_immediate hi]

theorem operandF_memory {o : Operand} (hi : modeOf o ≠ .immediate) (op : Byte) (ea : Word) (m : Memory) :
    operandF op o ea m = m.readPair ea.toNat := by
  simp only [operandF, refuseImmediate_memory hi]

/-! ### OperandWord into registers -/

/-- An executor that leaves registers `g` and memory `m` and nothing else completes with them. -/
theorem exec_eq_completed {i : Instr} {s : State} {ea : Option Word} {g : Regs} {m : Memory}
    (ha : addressOf i s = .ok ea)
    (hx : executorOf i (ea.getD 0) (afterAdvance i s) = .ok { s with regs := g, mem := m }) :
    exec i s = .next (completed i ea s g m) :=
  exec_completes ha hx

/-- An executor that maps OperandWord to registers, and fails as its read does, takes a word. -/
theorem takesWord_of_executorOf {mk : Operand → Instr} {opcode : Byte} {result : Regs → Word → Regs}
    (hf : ∀ o, (mk o).fields = .operand o) (hop : ∀ o, opcodeOf (mk o) = opcode)
    (hx : ∀ o ea s, executorOf (mk o) ea s =
      (operandWord o ea s.mem).map fun m => { s with regs := result s.regs m }) :
    TakesWord mk opcode result := by
  intro o s ea hea
  have ha : addressOf (mk o) s = .ok (some ea) := addressOf_ok (hf o) hea
  have hx' : executorOf (mk o) ea (afterAdvance (mk o) s) = (operandWord o ea s.mem).map _ := hx o ea _
  refine ⟨hop o, fun h => exec_eq_completed ha ?_, fun hi hal => exec_fails ha ?_, fun hi hal hb => exec_fails ha ?_⟩
  · exact hx'.trans (by rw [operandWord_of_ready h]; rfl)
  · exact hx'.trans (by rw [operandWord_misaligned hi hal]; rfl)
  · exact hx'.trans (by rw [operandWord_outside hi hal hb]; rfl)

theorem accumulate_eq_map (f : Word → Word → Word) (o : Operand) (ea : Word) (s : State) :
    accumulate f o ea s = (operandWord o ea s.mem).map fun m => s.writeResult .a (f (s.reg .a) m) := by
  unfold accumulate
  cases operandWord o ea s.mem <;> rfl

theorem loadWord_eq_map (r : Reg24) (o : Operand) (ea : Word) (s : State) :
    loadWord r o ea s = (operandWord o ea s.mem).map fun m => s.writeResult r m := by
  unfold loadWord
  cases operandWord o ea s.mem <;> rfl

theorem compareA_eq_map (o : Operand) (ea : Word) (s : State) :
    compareA o ea s = (operandWord o ea s.mem).map fun m => s.setCode (compareCode (s.reg .a) m) := by
  unfold compareA
  cases operandWord o ea s.mem <;> rfl

theorem takesWord_of_accumulate {mk : Operand → Instr} {opcode : Byte} (f : Word → Word → Word)
    (hf : ∀ o, (mk o).fields = .operand o) (hop : ∀ o, opcodeOf (mk o) = opcode)
    (hx : ∀ o, executorOf (mk o) = accumulate f o) :
    TakesWord mk opcode fun g m => { g with a := f g.a m, sw := signCode (f g.a m).toInt } :=
  takesWord_of_executorOf hf hop fun o ea s => by rw [hx, accumulate_eq_map]; rfl

theorem takesWord_of_loadWord {mk : Operand → Instr} {opcode : Byte} (r : Reg24)
    (hf : ∀ o, (mk o).fields = .operand o) (hop : ∀ o, opcodeOf (mk o) = opcode)
    (hx : ∀ o, executorOf (mk o) = loadWord r o) :
    TakesWord mk opcode fun g m => (g.set r m).set .sw (signCode m.toInt) :=
  takesWord_of_executorOf hf hop fun o ea s => by rw [hx, loadWord_eq_map]; rfl

/-! ### Exact results reduced modulo 2 to the width (R11, R150 to R152) -/

theorem add_eq_ofInt {w : Nat} (a b : BitVec w) : a + b = BitVec.ofInt w (a.toInt + b.toInt) :=
  BitVec.eq_of_toInt_eq (by rw [BitVec.toInt_add, BitVec.toInt_ofInt])

theorem sub_eq_ofInt {w : Nat} (a b : BitVec w) : a - b = BitVec.ofInt w (a.toInt - b.toInt) :=
  BitVec.eq_of_toInt_eq (by rw [BitVec.toInt_sub, BitVec.toInt_ofInt])

theorem mul_eq_ofInt {w : Nat} (a b : BitVec w) : a * b = BitVec.ofInt w (a.toInt * b.toInt) :=
  BitVec.eq_of_toInt_eq (by rw [BitVec.toInt_mul, BitVec.toInt_ofInt])

/-- The comparison is the sign of the exact difference (R189). -/
theorem compareCode_eq_signCode (a b : Word) : compareCode a b = signCode (a.toInt - b.toInt) := by
  simp only [compareCode, signCode, sub_eq_zero, sub_neg]

/-- Settles O37: each operation on A is the exact one, reduced. -/
theorem addSubMulOnA : Obligations.AddSubMulOnA := by
  refine ⟨takesWord_of_accumulate (fun a m => BitVec.ofInt 24 (a.toInt + m.toInt)) (fun _ => rfl) (fun _ => rfl) ?_,
    takesWord_of_accumulate (fun a m => BitVec.ofInt 24 (a.toInt - m.toInt)) (fun _ => rfl) (fun _ => rfl) ?_,
    takesWord_of_accumulate (fun a m => BitVec.ofInt 24 (a.toInt * m.toInt)) (fun _ => rfl) (fun _ => rfl) ?_⟩
  · exact fun o => congrArg (accumulate · o) (funext₂ add_eq_ofInt)
  · exact fun o => congrArg (accumulate · o) (funext₂ sub_eq_ofInt)
  · exact fun o => congrArg (accumulate · o) (funext₂ mul_eq_ofInt)

/-- Settles O42: the executors are `accumulate` with the bitwise operations. -/
theorem andOrOnA : Obligations.AndOrOnA :=
  ⟨takesWord_of_accumulate (fun a m => a &&& m) (fun _ => rfl) (fun _ => rfl) fun _ => rfl,
   takesWord_of_accumulate (fun a m => a ||| m) (fun _ => rfl) (fun _ => rfl) fun _ => rfl⟩

/-- Settles O43: COMP writes nothing but the comparison. -/
theorem compComparesSigned : Obligations.CompComparesSigned :=
  takesWord_of_executorOf (fun _ => rfl) (fun _ => rfl) fun o ea s => by
    simp only [executorOf, compareA_eq_map, compareCode_eq_signCode]
    rfl

/-- Settles O48: six loads, one for each destination. -/
theorem wordLoadsSetTheirRegister : Obligations.WordLoadsSetTheirRegister :=
  ⟨takesWord_of_loadWord .a (fun _ => rfl) (fun _ => rfl) fun _ => rfl,
   takesWord_of_loadWord .x (fun _ => rfl) (fun _ => rfl) fun _ => rfl,
   takesWord_of_loadWord .l (fun _ => rfl) (fun _ => rfl) fun _ => rfl,
   takesWord_of_loadWord .b (fun _ => rfl) (fun _ => rfl) fun _ => rfl,
   takesWord_of_loadWord .s (fun _ => rfl) (fun _ => rfl) fun _ => rfl,
   takesWord_of_loadWord .t (fun _ => rfl) (fun _ => rfl) fun _ => rfl⟩

/-! ### DIV (R153, R305) -/

theorem divideA_of_operand_error {o : Operand} {ea : Word} {s : State} {k : Failure}
    (h : operandWord o ea s.mem = .error k) : divideA o ea s = .error k := by
  simp only [divideA, h]

theorem divideA_of_zero {o : Operand} {ea : Word} {s : State} (h : operandWord o ea s.mem = .ok 0) :
    divideA o ea s = .error (.arithmeticError .div) := by
  simp only [divideA, h, if_true]

theorem divideA_of_ne_zero {o : Operand} {ea : Word} {s : State} {m : Word} (h : operandWord o ea s.mem = .ok m)
    (hm : m ≠ 0) : divideA o ea s = .ok (s.writeResult .a (quotient (s.reg .a) m)) := by
  simp only [divideA, h, hm, if_false]

/-- Settles O38: the read's failures, then the zero check, then the truncated quotient. -/
theorem divTruncatesTowardZero : Obligations.DivTruncatesTowardZero := by
  intro o s ea hea
  have ha : addressOf (.div o) s = .ok (some ea) := addressOf_ok rfl hea
  refine ⟨rfl, fun h hm => exec_eq_completed ha ?_, fun h hm => exec_fails ha ?_, fun hi hal => exec_fails ha ?_,
    fun hi hal hb => exec_fails ha ?_⟩
  · exact divideA_of_ne_zero (operandWord_of_ready h) hm
  · exact divideA_of_zero (hm ▸ operandWord_of_ready h)
  · exact divideA_of_operand_error (operandWord_misaligned hi hal _)
  · exact divideA_of_operand_error (operandWord_outside hi hal hb)

/-! ### ADDF and SUBF (R160, R161) -/

theorem accumulateF_eq_map (f : FWord → FWord → FWord) (op : Byte) (o : Operand) (ea : Word) (s : State) :
    accumulateF f op o ea s = (operandF op o ea s.mem).map fun m => s.writeResultF (f s.regF m) := by
  unfold accumulateF
  cases operandF op o ea s.mem <;> rfl

theorem takesPair_of_accumulateF {mk : Operand → Instr} {opcode : Byte} (f : FWord → FWord → FWord)
    (hf : ∀ o, (mk o).fields = .operand o) (hop : ∀ o, opcodeOf (mk o) = opcode)
    (hx : ∀ o, executorOf (mk o) = accumulateF f opcode o) : TakesPair mk opcode f := by
  intro o s ea hea
  have ha : addressOf (mk o) s = .ok (some ea) := addressOf_ok (hf o) hea
  have hx' : executorOf (mk o) ea (afterAdvance (mk o) s) = (operandF opcode o ea s.mem).map _ :=
    (congrFun₂ (hx o) ea _).trans (accumulateF_eq_map f opcode o ea _)
  refine ⟨hop o, fun hi hal hb => exec_eq_completed ha ?_, fun hi => exec_fails ha ?_, fun hi hal => exec_fails ha ?_,
    fun hi hal hb => exec_fails ha ?_⟩
  · exact hx'.trans (by rw [operandF_memory hi, Memory.readPair_ok hal hb]; rfl)
  · exact hx'.trans (by rw [operandF_immediate hi]; rfl)
  · exact hx'.trans (by rw [operandF_memory hi, Memory.readPair_misaligned hal]; rfl)
  · exact hx'.trans (by rw [operandF_memory hi, Memory.readPair_outside hal hb]; rfl)

/-- Settles O41: each operation on F is the exact one, reduced. -/
theorem addfSubfOnF : Obligations.AddfSubfOnF := by
  refine ⟨takesPair_of_accumulateF _ (fun _ => rfl) (fun _ => rfl) ?_,
    takesPair_of_accumulateF _ (fun _ => rfl) (fun _ => rfl) ?_⟩
  · exact fun o => congrArg (accumulateF · 0x58 o) (funext₂ add_eq_ofInt)
  · exact fun o => congrArg (accumulateF · 0x5C o) (funext₂ sub_eq_ofInt)

/-! ### LDCH (R212) -/

theorem withLowByte_eq_append (v : Word) (c : Byte) : withLowByte v c = v.extractLsb' 8 16 ++ c := by
  refine BitVec.eq_of_getLsbD_eq fun j hj => ?_
  rw [withLowByte, BitVec.getLsbD_or, BitVec.getLsbD_and, BitVec.getLsbD_append, BitVec.getLsbD_extractLsb',
    BitVec.getLsbD_setWidth]
  interval_cases j <;> simp

theorem withLowByte_eq_ofNat (v : Word) (c : Byte) :
    withLowByte v c = BitVec.ofNat 24 (v.toNat / 256 * 256 + c.toNat) := by
  refine BitVec.eq_of_toNat_eq ?_
  rw [withLowByte_eq_append, toNat_append_eq, toNat_extract, BitVec.toNat_ofNat]
  omega

theorem loadByte_eq_map (o : Operand) (ea : Word) (s : State) :
    loadByte o ea s = (operandByte o ea s.mem).map fun c => s.writeResult .a (withLowByte (s.reg .a) c) := by
  unfold loadByte
  cases operandByte o ea s.mem <;> rfl

/-- Settles O49: the low byte is appended to the 16 bits above it. -/
theorem ldchReplacesTheLowByte : Obligations.LdchReplacesTheLowByte := by
  intro o s ea hea
  have ha : addressOf (.ldch o) s = .ok (some ea) := addressOf_ok rfl hea
  have hx : executorOf (.ldch o) ea (afterAdvance (.ldch o) s) = (operandByte o ea s.mem).map _ :=
    loadByte_eq_map o ea _
  refine ⟨rfl, fun h => exec_eq_completed ha ?_, fun hi hb => exec_fails ha ?_⟩
  · exact hx.trans (by rw [operandByte_of_ready h]; simp only [withLowByte_eq_ofNat]; rfl)
  · exact hx.trans (by rw [operandByte_outside hi hb]; rfl)

/-! ### Only the address (R250 to R254, R270 to R277) -/

theorem takesAddress_of_executorOf {mk : Operand → Instr} {opcode : Byte} {result : Regs → Word → Regs}
    (hf : ∀ o, (mk o).fields = .operand o) (hop : ∀ o, opcodeOf (mk o) = opcode)
    (hx : ∀ o ea s, executorOf (mk o) ea s = .ok { s with regs := result s.regs ea }) :
    TakesAddress mk opcode result := by
  intro o s ea hea
  exact ⟨hop o, exec_eq_completed (addressOf_ok (hf o) hea) (hx o ea _)⟩

theorem jumpOnCode_eq (c ea : Word) (s : State) :
    jumpOnCode c ea s = .ok { s with regs := if s.regs.sw = c then { s.regs with pc := ea } else s.regs } := by
  unfold jumpOnCode
  by_cases hc : s.regs.sw = c
  · rw [if_pos hc, if_pos (show s.reg .sw = c from hc)]; rfl
  · rw [if_neg hc, if_neg (show ¬ s.reg .sw = c from hc)]

/-- Settles O52: J sets the PC to EA, the others do when the condition code is theirs. -/
theorem jumpsTakeTheEffectiveAddress : Obligations.JumpsTakeTheEffectiveAddress :=
  ⟨takesAddress_of_executorOf (fun _ => rfl) (fun _ => rfl) fun _ _ _ => rfl,
   takesAddress_of_executorOf (fun _ => rfl) (fun _ => rfl) fun _ => jumpOnCode_eq 0,
   takesAddress_of_executorOf (fun _ => rfl) (fun _ => rfl) fun _ => jumpOnCode_eq 1,
   takesAddress_of_executorOf (fun _ => rfl) (fun _ => rfl) fun _ => jumpOnCode_eq 2⟩

/-- Settles O53: the two register writes of JSUB's executor. -/
theorem jsubSavesThePostFetchPc : Obligations.JsubSavesThePostFetchPc :=
  takesAddress_of_executorOf (fun _ => rfl) (fun _ => rfl) fun _ _ _ => rfl

/-- Settles O55: the executors answer the state after the PC advance. -/
theorem pseudoOpsOnlyAdvance : Obligations.PseudoOpsOnlyAdvance :=
  ⟨takesAddress_of_executorOf (fun _ => rfl) (fun _ => rfl) fun _ _ _ => rfl,
   takesAddress_of_executorOf (fun _ => rfl) (fun _ => rfl) fun _ _ _ => rfl,
   takesAddress_of_executorOf (fun _ => rfl) (fun _ => rfl) fun _ _ _ => rfl,
   fun _ => ⟨rfl, exec_completes (i := .sio) (ea := none) rfl rfl, rfl,
     exec_completes (i := .tio) (ea := none) rfl rfl⟩⟩

/-- Settles O56: the two draws, each of the counter's present value. -/
theorem rdAndTdTakeOneDraw : Obligations.RdAndTdTakeOneDraw := by
  intro o s ea hea
  refine ⟨rfl, rfl, ⟨Config.ioRdValue s.draws, ?_⟩, BitVec.ofNat 24 (Config.ioTdValue s.draws).val,
    testDevice_code_le_two s, ?_⟩
  · exact exec_completes (i := .rd o) (addressOf_ok rfl hea) rfl
  · exact exec_completes (i := .td o) (addressOf_ok rfl hea) rfl

end Sys2Proof.Machine
end

section
/-! PROOFS. The stores (spec/44_store.md R230 to R237): the refusals in order, then the bytes at EA. -/

namespace Sys2Proof.Machine

/-! ### Word stores -/

theorem storeWord_immediate {o : Operand} (hi : modeOf o = .immediate) (op : Byte) (r : Reg24) (ea : Word) (s : State) :
    storeWord op r o ea s = .error (.illegalAddressingMode op) := by
  simp only [storeWord, refuseImmediate_immediate hi]

theorem storeWord_memory {o : Operand} (hi : modeOf o ≠ .immediate) (op : Byte) (r : Reg24) (ea : Word) (s : State) :
    storeWord op r o ea s = (s.mem.writeWord ea.toNat (s.reg r)).map fun m => { s with mem := m } := by
  simp only [storeWord, refuseImmediate_memory hi]
  cases s.mem.writeWord ea.toNat (s.reg r) <;> rfl

theorem storesWord_of_storeWord {mk : Operand → Instr} {opcode : Byte} {r : Reg24} (hr : r ≠ .pc)
    (hf : ∀ o, (mk o).fields = .operand o) (hop : ∀ o, opcodeOf (mk o) = opcode)
    (hx : ∀ o, executorOf (mk o) = storeWord opcode r o) : StoresWord mk opcode fun g => g.get r := by
  intro o s ea hea
  have ha : addressOf (mk o) s = .ok (some ea) := addressOf_ok (hf o) hea
  have hreg : (afterAdvance (mk o) s).reg r = s.regs.get r := Regs.get_set_ne s.regs (nextPc (mk o) s) hr
  have hmem : ∀ hi : modeOf o ≠ .immediate, executorOf (mk o) ea (afterAdvance (mk o) s) =
      (s.mem.writeWord ea.toNat (s.regs.get r)).map fun m => { afterAdvance (mk o) s with mem := m } :=
    fun hi => by rw [hx, storeWord_memory hi, hreg]; rfl
  refine ⟨hop o, fun hwf hi hal hb => ⟨s.mem.putWord ea.toNat (s.regs.get r), exec_eq_completed ha ?_, ?_⟩,
    fun hi => exec_fails ha ?_, fun hi hal => exec_fails ha ?_, fun hi hal hb => exec_fails ha ?_⟩
  · exact (hmem hi).trans (by rw [Memory.writeWord_ok _ hal hb]; rfl)
  · exact ⟨Memory.putWord_size .., Memory.get_putWord_0 hwf _, Memory.get_putWord_1 hwf (by omega) _,
      Memory.get_putWord_2 hwf (by omega) _, fun a h => Memory.get_putWord_ne _ _ h⟩
  · rw [hx]; exact storeWord_immediate hi ..
  · exact (hmem hi).trans (by rw [Memory.writeWord_misaligned _ hal]; rfl)
  · exact (hmem hi).trans (by rw [Memory.writeWord_outside _ hal hb]; rfl)

/-- Settles O50: six stores, one for each source. -/
theorem wordStoresWriteThreeBytes : Obligations.WordStoresWriteThreeBytes :=
  ⟨storesWord_of_storeWord (r := .a) (by decide) (fun _ => rfl) (fun _ => rfl) fun _ => rfl,
   storesWord_of_storeWord (r := .b) (by decide) (fun _ => rfl) (fun _ => rfl) fun _ => rfl,
   storesWord_of_storeWord (r := .l) (by decide) (fun _ => rfl) (fun _ => rfl) fun _ => rfl,
   storesWord_of_storeWord (r := .s) (by decide) (fun _ => rfl) (fun _ => rfl) fun _ => rfl,
   storesWord_of_storeWord (r := .t) (by decide) (fun _ => rfl) (fun _ => rfl) fun _ => rfl,
   storesWord_of_storeWord (r := .x) (by decide) (fun _ => rfl) (fun _ => rfl) fun _ => rfl⟩

/-! ### STCH -/

theorem storeByte_immediate {o : Operand} (hi : modeOf o = .immediate) (op : Byte) (ea : Word) (s : State) :
    storeByte op o ea s = .error (.illegalAddressingMode op) := by
  simp only [storeByte, refuseImmediate_immediate hi]

theorem storeByte_memory {o : Operand} (hi : modeOf o ≠ .immediate) (op : Byte) (ea : Word) (s : State) :
    storeByte op o ea s =
      (s.mem.writeByte ea.toNat (s.regs.a.extractLsb' 0 8)).map fun m => { s with mem := m } := by
  simp only [storeByte, refuseImmediate_memory hi, State.reg_eq, Regs.get]
  cases s.mem.writeByte ea.toNat (s.regs.a.extractLsb' 0 8) <;> rfl

/-- Settles O51: a byte store is checked for its mode and its bounds only. -/
theorem stchWritesOneByte : Obligations.StchWritesOneByte := by
  intro o s ea hea
  have ha : addressOf (.stch o) s = .ok (some ea) := addressOf_ok rfl hea
  have hmem : ∀ hi : modeOf o ≠ .immediate, executorOf (.stch o) ea (afterAdvance (.stch o) s) =
      (s.mem.writeByte ea.toNat (s.regs.a.extractLsb' 0 8)).map fun m => { afterAdvance (.stch o) s with mem := m } :=
    fun hi => storeByte_memory hi _ ea _
  refine ⟨rfl, fun hwf hi hb => ⟨s.mem.put ea.toNat (s.regs.a.extractLsb' 0 8), exec_eq_completed ha ?_, ?_⟩,
    fun hi => exec_fails ha ?_, fun hi hb => exec_fails ha ?_⟩
  · exact (hmem hi).trans (by rw [Memory.writeByte_ok _ hb]; rfl)
  · refine ⟨Memory.put_size .., ?_, fun a h => Memory.get_put_ne _ _ h⟩
    rw [Memory.get_put_same hwf, toNat_extract]
    omega
  · exact storeByte_immediate hi ..
  · exact (hmem hi).trans (by rw [Memory.writeByte_error _ (by omega)]; rfl)

end Sys2Proof.Machine
end

section
/-! PROOFS. The register forms (spec/41_arithmetic.md section 2, 42_logic_compare.md R180 to R188): r1 is checked
before r2, both before anything is read. -/

namespace Sys2Proof.Machine

/-! ### Register numbers -/

/-- Settles O12: the sixteen numbers of the table, one by one. -/
theorem registerNumbersAsListed : Obligations.RegisterNumbersAsListed := by
  unfold Obligations.RegisterNumbersAsListed
  decide

theorem regop24_eq_ok_inv {n : BitVec 4} {d : Reg24} (h : regop24 n = .ok d) :
    ∃ r, regNumber n = some r ∧ narrow r = some d := by
  unfold regop24 at h
  split at h
  · cases h
  · next r hr =>
    split at h
    · cases h
    · next q hq => cases h; exact ⟨r, hr, hq⟩

/-! ### Two registers into one (R154 to R157) -/

theorem combineRegs_of_ok {f : Word → Word → Except Failure Word} {r1 r2 : BitVec 4} {s : State} {src dst : Reg24}
    (h1 : regop24 r1 = .ok src) (h2 : regop24 r2 = .ok dst) :
    combineRegs f r1 r2 s = (f (s.reg dst) (s.reg src)).map fun v => s.writeResult dst v := by
  simp only [combineRegs, h1, h2]
  cases f (s.reg dst) (s.reg src) <;> rfl

theorem combineRegs_of_bad_r1 {r1 : BitVec 4} {k : Failure} (h1 : regop24 r1 = .error k)
    (f : Word → Word → Except Failure Word) (r2 : BitVec 4) (s : State) : combineRegs f r1 r2 s = .error k := by
  simp only [combineRegs, h1]

theorem combineRegs_of_bad_r2 {r1 r2 : BitVec 4} {q : Reg24} {k : Failure} (h1 : regop24 r1 = .ok q)
    (h2 : regop24 r2 = .error k) (f : Word → Word → Except Failure Word) (s : State) :
    combineRegs f r1 r2 s = .error k := by
  simp only [combineRegs, h1, h2]

/-- A format-2 instruction refuses the registers that its executor refuses. -/
theorem refusesRegs_of_executorOf {mk : BitVec 4 → BitVec 4 → Instr} {usesR2 : Bool}
    (hf : ∀ r1 r2, (mk r1 r2).fields = .regs r1 r2)
    (h1 : ∀ r1 r2 k s, regop24 r1 = .error k → executorOf (mk r1 r2) 0 s = .error k)
    (h2 : ∀ r1 r2 q k s, usesR2 = true → regop24 r1 = .ok q → regop24 r2 = .error k →
      executorOf (mk r1 r2) 0 s = .error k) : RefusesRegs mk usesR2 := by
  intro r1 r2 s
  have ha : addressOf (mk r1 r2) s = .ok none := by simp only [addressOf, hf]
  exact ⟨fun k hk => exec_fails ha (h1 r1 r2 k _ hk), fun q k hu hq hk => exec_fails ha (h2 r1 r2 q k _ hu hq hk)⟩

theorem refusesRegs_of_combineRegs {mk : BitVec 4 → BitVec 4 → Instr} (f : Word → Word → Except Failure Word)
    (hf : ∀ r1 r2, (mk r1 r2).fields = .regs r1 r2)
    (hx : ∀ r1 r2, executorOf (mk r1 r2) 0 = combineRegs f r1 r2) : RefusesRegs mk true :=
  refusesRegs_of_executorOf hf (fun r1 r2 _ s h => by rw [hx]; exact combineRegs_of_bad_r1 h f r2 s)
    fun r1 r2 _ _ s _ h1 h2 => by rw [hx]; exact combineRegs_of_bad_r2 h1 h2 f s

theorem combinesRegs_of_combineRegs {mk : BitVec 4 → BitVec 4 → Instr} {opcode : Byte} (f : Word → Word → Word)
    (hf : ∀ r1 r2, (mk r1 r2).fields = .regs r1 r2) (hop : ∀ r1 r2, opcodeOf (mk r1 r2) = opcode)
    (hx : ∀ r1 r2, executorOf (mk r1 r2) 0 = combineRegs (fun v2 v1 => .ok (f v2 v1)) r1 r2) :
    CombinesRegs mk opcode f := by
  intro r1 r2 s src dst h1 h2
  have ha : addressOf (mk r1 r2) s = .ok none := by simp only [addressOf, hf]
  exact ⟨hop r1 r2, exec_eq_completed ha ((congrFun (hx r1 r2) _).trans (combineRegs_of_ok h1 h2))⟩

/-- Settles O39: each operation is the exact one, reduced. -/
theorem registerAddSubMul : Obligations.RegisterAddSubMul := by
  refine ⟨combinesRegs_of_combineRegs _ (fun _ _ => rfl) (fun _ _ => rfl) fun r1 r2 => ?_,
    refusesRegs_of_combineRegs (fun v2 v1 => .ok (v2 + v1)) (fun _ _ => rfl) fun _ _ => rfl,
    combinesRegs_of_combineRegs _ (fun _ _ => rfl) (fun _ _ => rfl) fun r1 r2 => ?_,
    refusesRegs_of_combineRegs (fun v2 v1 => .ok (v2 - v1)) (fun _ _ => rfl) fun _ _ => rfl,
    combinesRegs_of_combineRegs _ (fun _ _ => rfl) (fun _ _ => rfl) fun r1 r2 => ?_,
    refusesRegs_of_combineRegs (fun v2 v1 => .ok (v2 * v1)) (fun _ _ => rfl) fun _ _ => rfl⟩
  · simp only [executorOf, add_eq_ofInt]
  · simp only [executorOf, sub_eq_ofInt]
  · simp only [executorOf, mul_eq_ofInt]

/-- DIVR's operation on the two registers: the divisor's zero check, then the quotient (R157). -/
def checkedQuotient (v2 v1 : Word) : Except Failure Word :=
  if v1 = 0 then .error (.arithmeticError .divr) else .ok (quotient v2 v1)

theorem checkedQuotient_of_ne_zero {v1 : Word} (h : v1 ≠ 0) (v2 : Word) :
    checkedQuotient v2 v1 = .ok (quotient v2 v1) := if_neg h

theorem checkedQuotient_of_zero {v1 : Word} (h : v1 = 0) (v2 : Word) :
    checkedQuotient v2 v1 = .error (.arithmeticError .divr) := if_pos h

theorem executorOf_divr (r1 r2 : BitVec 4) : executorOf (.divr r1 r2) 0 = combineRegs checkedQuotient r1 r2 := rfl

/-- Settles O40: the registers are checked, then the divisor r1, then r2 takes the truncated quotient. -/
theorem divrTruncatesTowardZero : Obligations.DivrTruncatesTowardZero := by
  refine ⟨refusesRegs_of_combineRegs checkedQuotient (fun _ _ => rfl) executorOf_divr, fun r1 r2 s src dst h1 h2 => ?_⟩
  have hx := (congrFun (executorOf_divr r1 r2) (afterAdvance (.divr r1 r2) s)).trans (combineRegs_of_ok h1 h2)
  refine ⟨rfl, fun h => exec_eq_completed (ea := none) rfl ?_, fun h => exec_fails (ea := none) rfl ?_⟩
  · exact hx.trans (congrArg (Except.map _) (checkedQuotient_of_ne_zero h _))
  · exact hx.trans (congrArg (Except.map _) (checkedQuotient_of_zero h _))

/-! ### Comparisons (R184, R185) -/

/-- Settles O44: both registers are checked, then SW takes their comparison. -/
theorem comprComparesSigned : Obligations.ComprComparesSigned := by
  refine ⟨refusesRegs_of_executorOf (fun _ _ => rfl) (fun r1 r2 k s h => ?_) fun r1 r2 q k s _ h1 h2 => ?_,
    fun r1 r2 s p q h1 h2 => ⟨rfl, exec_eq_completed (ea := none) rfl ?_⟩⟩
  · simp only [executorOf, compareRegs, h]
  · simp only [executorOf, compareRegs, h1, h2]
  · simp only [executorOf, compareRegs, h1, h2, compareCode_eq_signCode]
    rfl

/-- Settles O45: X is incremented before r1 is read, and r2 is not looked at. -/
theorem tixrIncrementsThenCompares : Obligations.TixrIncrementsThenCompares := by
  refine ⟨refusesRegs_of_executorOf (fun _ _ => rfl) (fun r1 r2 k s h => ?_) fun r1 r2 q k s h => ?_,
    fun r1 r2 s q h => ⟨rfl, exec_eq_completed (ea := none) rfl ?_⟩⟩
  · simp only [executorOf, incrementCompare, h]
  · cases h
  · simp only [executorOf, incrementCompare, h, compareCode_eq_signCode, ← add_ofNat_eq]
    rfl

/-! ### CLEAR (R186) -/

theorem regNumber_eq_none {n : BitVec 4} : n = 7 ∨ 10 ≤ n.toNat → regNumber n = none := by
  revert n
  decide

/-- Settles O46, by what r1 names: a 24-bit register, F, or nothing. -/
theorem clearZeroesAnyRegister : Obligations.ClearZeroesAnyRegister := by
  intro r1 r2 s
  refine ⟨rfl, fun d h => exec_eq_completed (ea := none) rfl ?_, fun h => exec_eq_completed (ea := none) rfl ?_,
    fun h => exec_fails (ea := none) rfl ?_⟩
  · obtain ⟨r, hr, hd⟩ := regop24_eq_ok_inv h
    simp only [executorOf, clearNumbered, hr, State.clearReg, hd]
    rfl
  · subst h
    rfl
  · simp only [executorOf, clearNumbered, regNumber_eq_none h]

/-! ### Shifts (R187, R188) -/

theorem shiftCount_le (r2 : BitVec 4) : shiftCount r2 ≤ 16 := r2.isLt

theorem rotateLeft_eq {v : Word} {n : Nat} (hn : n < 24) : rotateLeft v n = v.rotateLeft n := by
  rw [rotateLeft, BitVec.rotateLeft_eq_rotateLeftAux_of_lt hn]
  rfl

/-- The floor of the signed value by a power of two is the arithmetic shift (R188). -/
theorem shiftRight_eq (v : Word) (n : Nat) : shiftRight v n = v.sshiftRight n := by
  rw [shiftRight, BitVec.sshiftRight_eq, Int.shiftRight_eq_div_pow, Int.fdiv_eq_ediv_of_nonneg _ (by positivity)]
  rfl

theorem shiftReg_of_ok {f : Word → Nat → Word} {r1 : BitVec 4} {d : Reg24} (h : regop24 r1 = .ok d) (r2 : BitVec 4)
    (s : State) : shiftReg f r1 r2 s = .ok (s.writeResult d (f (s.reg d) (shiftCount r2))) := by
  simp only [shiftReg, h]

theorem refusesRegs_of_shiftReg {mk : BitVec 4 → BitVec 4 → Instr} {f : Word → Nat → Word}
    (hf : ∀ r1 r2, (mk r1 r2).fields = .regs r1 r2) (hx : ∀ r1 r2, executorOf (mk r1 r2) 0 = shiftReg f r1 r2) :
    RefusesRegs mk false :=
  refusesRegs_of_executorOf hf (fun r1 r2 k s h => by rw [hx]; simp only [shiftReg, h]) fun _ _ _ _ _ h => by cases h

theorem shiftsReg_of_shiftReg {mk : BitVec 4 → BitVec 4 → Instr} {opcode : Byte} {f result : Word → Nat → Word}
    (hf : ∀ r1 r2, (mk r1 r2).fields = .regs r1 r2) (hop : ∀ r1 r2, opcodeOf (mk r1 r2) = opcode)
    (hx : ∀ r1 r2, executorOf (mk r1 r2) 0 = shiftReg f r1 r2) (hres : ∀ v n, n ≤ 16 → f v n = result v n) :
    ShiftsReg mk opcode result := by
  intro r1 r2 s d h
  have ha : addressOf (mk r1 r2) s = .ok none := by simp only [addressOf, hf]
  refine ⟨hop r1 r2, exec_eq_completed ha ((congrFun (hx r1 r2) _).trans ?_)⟩
  rw [shiftReg_of_ok h, hres _ _ (shiftCount_le r2)]
  rfl

/-- Settles O47: the two shifts are the library's rotation and arithmetic shift at every count. -/
theorem shiftsRotateLeftAndFillRight : Obligations.ShiftsRotateLeftAndFillRight :=
  ⟨shiftsReg_of_shiftReg (fun _ _ => rfl) (fun _ _ => rfl) (fun _ _ => rfl) fun _ _ hn => rotateLeft_eq (by omega),
   refusesRegs_of_shiftReg (fun _ _ => rfl) fun _ _ => rfl,
   shiftsReg_of_shiftReg (fun _ _ => rfl) (fun _ _ => rfl) (fun _ _ => rfl) fun v n _ => shiftRight_eq v n,
   refusesRegs_of_shiftReg (fun _ _ => rfl) fun _ _ => rfl⟩

end Sys2Proof.Machine
end

section
/-! PROOFS. Words, extended words and whole images in memory (spec/20_memory.md R53 to R56, R63 to R65,
spec/70_reset_and_hazards.md R336): values as arithmetic on the bytes, and the bytes a write leaves. -/

namespace Sys2Proof.Machine

/-! ### Words (R53, R60) -/

theorem Memory.word_toNat (m : Memory) (a : Nat) :
    (m.word a).toNat = (m.get a).toNat * 65536 + (m.get (a + 1)).toNat * 256 + (m.get (a + 2)).toNat := by
  rw [Memory.word, toNat_append_eq, toNat_append_eq]
  omega

/-- The bytes of a word, most significant first, put together again. -/
theorem append_bytes (v : Word) : (v.extractLsb' 16 8 ++ v.extractLsb' 8 8 : BitVec 16) ++ v.extractLsb' 0 8 = v := by
  refine BitVec.eq_of_toNat_eq ?_
  rw [toNat_append_eq, toNat_append_eq, toNat_extract, toNat_extract, toNat_extract]
  omega

theorem Memory.word_putWord {m : Memory} (hm : m.wf = true) {a : Nat} (ha : a + 1 < m.size) (v : Word) :
    (m.putWord a v).word a = v := by
  rw [Memory.word, Memory.get_putWord_0 hm, Memory.get_putWord_1 hm (by omega), Memory.get_putWord_2 hm ha,
    append_bytes]

/-- Settles O10: the checks come first, and the three bytes are those of `word` and `putWord`. -/
theorem wordAccessIsBigEndianAlignedAndBounded : Obligations.WordAccessIsBigEndianAlignedAndBounded := by
  intro m a v
  refine ⟨fun ha hb => ⟨_, Memory.readWord_ok ha hb, m.word_toNat a⟩, fun hm ha hb => ?_,
    fun ha => ⟨Memory.readWord_misaligned ha, Memory.writeWord_misaligned v ha⟩,
    fun ha hb => ⟨Memory.readWord_outside ha (by omega), Memory.writeWord_outside v ha (by omega)⟩⟩
  have hread : (m.putWord a v).readWord a = .ok v :=
    (Memory.readWord_ok (m := m.putWord a v) ha hb).trans (congrArg _ (Memory.word_putWord hm (by omega) v))
  refine ⟨_, Memory.writeWord_ok v ha hb, m.putWord_size a v, hread, ?_, ?_, ?_, fun b h => m.get_putWord_ne v h⟩
  · rw [Memory.get_putWord_0 hm, toNat_extract]; omega
  · rw [Memory.get_putWord_1 hm (by omega), toNat_extract]; rfl
  · rw [Memory.get_putWord_2 hm (by omega), toNat_extract]; omega

/-! ### Extended words (R55) -/

/-- A word's value depends on nothing but its three bytes. -/
theorem Memory.word_congr {m m' : Memory} {a : Nat} (h : ∀ b, b < a + 3 → m'.get b = m.get b) :
    m'.word a = m.word a := by
  rw [Memory.word, Memory.word, h a (by omega), h (a + 1) (by omega), h (a + 2) (by omega)]

theorem append_word_byte (v : BitVec 32) : v.extractLsb' 8 24 ++ v.extractLsb' 0 8 = v := by
  refine BitVec.eq_of_toNat_eq ?_
  rw [toNat_append_eq, toNat_extract, toNat_extract]
  omega

theorem Memory.readExtended_ok {m : Memory} {a : Nat} (h : a + 4 ≤ m.size) :
    m.readExtended a = .ok (m.word a ++ m.get (a + 3)) := if_pos h

/-- Settles O11: an extended word is a word and the byte after it. -/
theorem extendedAccessIsFourBytes : Obligations.ExtendedAccessIsFourBytes := by
  intro m a v
  refine ⟨fun hb => ⟨_, Memory.readExtended_ok hb, ?_⟩, fun hm hb => ?_,
    fun hb => ⟨if_neg (Nat.not_le.mpr hb), if_neg (Nat.not_le.mpr hb)⟩⟩
  · rw [toNat_append_eq, Memory.word_toNat]
    omega
  · have hwf : (m.putWord a (v.extractLsb' 8 24)).wf = true := Memory.putWord_wf hm (by omega) _
    refine ⟨(m.putWord a (v.extractLsb' 8 24)).put (a + 3) (v.extractLsb' 0 8), if_pos hb, ?_⟩
    rw [Memory.readExtended_ok (by simpa using hb), Memory.get_put_same hwf,
      Memory.word_congr fun b h => Memory.get_put_ne _ _ (by omega), Memory.word_putWord hm (by omega),
      append_word_byte]

/-! ### The loader (R336) -/

/-- By induction on the image: it fits, and every byte is at its address. -/
theorem Memory.loadBytes_fits {m : Memory} (hm : m.wf = true) {start : Nat} {bytes : List Byte}
    (hfit : start + bytes.length ≤ m.size) :
    ∃ m', m.loadBytes start bytes = .ok m' ∧ m'.size = m.size ∧
      (∀ (j : Nat) (h : j < bytes.length), m'.get (start + j) = bytes[j]) ∧
      ∀ a, a < start ∨ start + bytes.length ≤ a → m'.get a = m.get a := by
  induction bytes generalizing m start with
  | nil => exact ⟨m, rfl, rfl, fun j h => absurd h (Nat.not_lt_zero j), fun _ _ => rfl⟩
  | cons b bytes ih =>
    simp only [List.length_cons] at hfit
    have hput : (m.put start b).wf = true := Memory.put_wf hm (by omega) b
    obtain ⟨m', hload, hsize, hget, hframe⟩ := ih (start := start + 1) hput (by rw [m.put_size]; omega)
    refine ⟨m', ?_, hsize, fun j h => ?_, fun a ha => ?_⟩
    · rw [Memory.loadBytes, Memory.writeByte_ok b (by omega)]
      exact hload
    · cases j with
      | zero => exact (hframe start (.inl (Nat.lt_succ_self start))).trans (Memory.get_put_same hm start b)
      | succ j => simpa [Nat.add_assoc, Nat.add_comm 1] using hget j (Nat.lt_of_succ_lt_succ h)
    · rw [List.length_cons] at ha
      rw [hframe a (by omega), Memory.get_put_ne _ _ (by omega)]

/-- By induction on the image: the writes go up from `start` and fail where memory ends. -/
theorem Memory.loadBytes_too_long {m : Memory} {start : Nat} {bytes : List Byte} (hne : bytes ≠ [])
    (hlong : m.size < start + bytes.length) :
    m.loadBytes start bytes = .error (.addressError (.memory (max start m.size))) := by
  induction bytes generalizing m start with
  | nil => exact absurd rfl hne
  | cons b bytes ih =>
    rw [List.length_cons] at hlong
    rw [Memory.loadBytes]
    by_cases hb : start < m.size
    · rw [Memory.writeByte_ok b hb]
      have hne' : bytes ≠ [] := by
        rintro rfl
        rw [List.length_nil] at hlong
        omega
      refine (ih hne' (by rw [m.put_size]; omega)).trans ?_
      rw [m.put_size, Nat.max_eq_right hb, Nat.max_eq_right (Nat.le_of_lt hb)]
    · rw [Memory.writeByte_error b (by omega), Nat.max_eq_left (by omega)]

/-- Settles O7: `loadImage` is `loadBytes` on the machine's memory. -/
theorem loaderCopiesTheImage : Obligations.LoaderCopiesTheImage := by
  intro s start bytes hm
  refine ⟨fun hfit => ?_, fun hne hlong => ?_⟩
  · obtain ⟨m, hload, hm'⟩ := Memory.loadBytes_fits hm hfit
    exact ⟨m, by rw [loadImage, hload], hm'⟩
  · rw [loadImage, Memory.loadBytes_too_long hne hlong]

end Sys2Proof.Machine
end

section
/-! PROOFS. The target address in simple and indirect mode (spec/30_encoding.md R92, R97 to R103). -/

namespace Sys2Proof.Machine

theorem modeOf_eq_simple_iff (o : Operand) : modeOf o = .simple ↔ o.n = o.i := by
  cases hn : o.n <;> cases hi : o.i <;> simp [modeOf, hn, hi]

theorem modeOf_eq_indirect_iff (o : Operand) : modeOf o = .indirect ↔ o.n = true ∧ o.i = false := by
  cases hn : o.n <;> cases hi : o.i <;> simp [modeOf, hn, hi]

/-- The displacement read as 12-bit two's complement (R97). -/
theorem dispOf_toInt (o : Operand) :
    (dispOf o).toInt = if 2048 ≤ o.field.toNat % 4096 then (o.field.toNat % 4096 : Int) - 4096
      else (o.field.toNat % 4096 : Int) := by
  rw [BitVec.toInt_eq_toNat_cond, dispOf_toNat]
  split <;> split <;> omega

/-- The value field is signed only for a format-3 displacement with p = 1 (R97). -/
theorem baseField_eq (o : Operand) :
    baseField o = if o.e then (o.field.toNat : Int)
      else if o.p ∧ 2048 ≤ (o.field.toNat : Int) % 4096 then (o.field.toNat : Int) % 4096 - 4096
      else (o.field.toNat : Int) % 4096 := by
  unfold baseField
  cases o.e with
  | true => rfl
  | false =>
    cases o.p with
    | true =>
      simp only [dispOf_toInt, Bool.false_eq_true, if_false, if_true, true_and]
      split <;> split <;> omega
    | false => simp [dispOf_toNat]

/-- The post-fetch PC wraps at 24 bits and wins over B (R97, R100, R103). -/
theorem relativeTerm_eq (o : Operand) (s : State) :
    relativeTerm o s =
      if o.p then ((s.regs.pc.toNat : Int) + if o.e then 4 else 3) % 16777216
      else if o.b then (s.regs.b.toNat : Int) else 0 := by
  unfold relativeTerm
  cases o.p with
  | true =>
    simp only [if_true, postPc, State.reg_eq, Regs.get, add_ofNat_eq, BitVec.toNat_ofNat, toNat_format_size]
    split <;> omega
  | false => rfl

/-- Settles O19: in simple mode EA is TA, whose three terms are those of the sum. -/
theorem simpleAddressIsTheSum : Obligations.SimpleAddressIsTheSum := by
  intro o s hni
  refine ⟨targetAddress o s, effectiveAddress_simple ((modeOf_eq_simple_iff o).mpr hni) s, ?_⟩
  rw [targetAddress, toNat_ofInt_eq_emod, baseField_eq, relativeTerm_eq]
  rfl

/-- Settles O20: indirect mode reads the word at the address that the same fields have in simple mode. -/
theorem indirectAddressIsTheWordAtTheTarget : Obligations.IndirectAddressIsTheWordAtTheTarget := by
  intro o s ta hn hi hta
  have hsimple : effectiveAddress { o with i := true } s = .ok (targetAddress o s) :=
    effectiveAddress_simple ((modeOf_eq_simple_iff { o with i := true }).mpr hn) s
  cases hsimple.symm.trans hta
  rw [effectiveAddress_indirect ((modeOf_eq_indirect_iff o).mpr ⟨hn, hi⟩)]
  exact ⟨Memory.readWord_ok, Memory.readWord_misaligned, Memory.readWord_outside⟩

end Sys2Proof.Machine
end

section
/-! PROOFS. The state after reset (spec/10_state.md R40). -/

namespace Sys2Proof.Machine

/-- Memory with no listed byte reads 0 everywhere (R40, R59). -/
theorem Memory.get_of_cells_nil {m : Memory} (h : m.cells = []) (a : Nat) : m.get a = 0 := by
  rw [Memory.get, h]
  rfl

/-- Settles O1: each field of the table, and memory with no listed byte. -/
theorem resetStateIsTheTable : Obligations.ResetStateIsTheTable :=
  ⟨rfl, rfl, rfl, rfl, rfl, Memory.get_of_cells_nil rfl⟩

/-- Settles O2: a reset reads nothing but the size and the draw counter, which it keeps. -/
theorem resetOperationFromEveryState : Obligations.ResetOperationFromEveryState := by
  intro s
  exact ⟨rfl, rfl, rfl, rfl, rfl, Memory.get_of_cells_nil (resetMachine_cells s), resetMachine_size s,
    resetMachine_draws s⟩

end Sys2Proof.Machine
end
